-- ==== Sys2Proof/Word.lean ====
section
/-! DEFINITION. The widths of the block: bytes, 32-bit registers and 16-byte blocks (R6, R11). -/

namespace Sys2Proof

/-- A byte, a value 0 to 255 (R11). -/
abbrev Byte := BitVec 8

/-- The contents of a register of the register space, `XLEN = 32` bits (R6, R11). -/
abbrev Word := BitVec 32

/-- A block of the cipher, `BS = 16` bytes, byte 0 the one at the lowest address (R2, R6, R58). -/
abbrev Block := Vector Byte 16

end Sys2Proof
end

