-- ==== Sys2Proof/Syntax.lean ====
section
/-! DEFINITION. The commands of the block: "These six are all the commands" (R71). -/

namespace Sys2Proof

/-- The six commands, one constructor per row of spec/opcode_table.json. "A command word carries no operand and no
immediate" (R74), so no constructor has an argument. -/
inductive Instr where
  /-- `PAD` (R95). -/
  | pad
  /-- `UNPAD` (R97). -/
  | unpad
  /-- `ECBENC` (R113). -/
  | ecbenc
  /-- `ECBDEC` (R114). -/
  | ecbdec
  /-- `XENC` (R127). -/
  | xenc
  /-- `XDEC` (R128). -/
  | xdec
  deriving DecidableEq, Repr

end Sys2Proof
end

