-- ==== Sys2Proof/Decode.lean ====
section
/-! DEFINITION. The command word and its decoding (R70 to R73), the encoder, and the opcode table as data. -/

namespace Sys2Proof

/-- Why a command word is illegal (R73): which field of R71 rules it out, the first in the order `ZERO`, `UNIT`, `FN`. -/
inductive IllegalWord where
  /-- A non-zero bit in 31:8. -/
  | zeroField
  /-- `UNIT` outside {1, 2, 3}. -/
  | unitField
  /-- `FN` outside {0, 1}. -/
  | fnField
  deriving DecidableEq, Repr

/-- Bits 31:8 of a command word, the field `ZERO` (R71). -/
def zeroField (w : Word) : BitVec 24 := w.extractLsb' 8 24

/-- Bits 7:4 of a command word, the field `UNIT` (R71). -/
def unitField (w : Word) : BitVec 4 := w.extractLsb' 4 4

/-- Bits 3:0 of a command word, the field `FN` (R71). -/
def fnField (w : Word) : BitVec 4 := w.extractLsb' 0 4

/-- The decoder of the command frame (R70, R71, R73): total on every 32-bit word. An illegal word is named by the field
that rules it out; what the block then does is `Machine.illegalCommand`. -/
def decode (w : Word) : Except IllegalWord Instr :=
  if zeroField w ≠ 0 then .error .zeroField
  else match (unitField w).toNat, (fnField w).toNat with
    | 1, 0 => .ok .pad
    | 1, 1 => .ok .unpad
    | 2, 0 => .ok .ecbenc
    | 2, 1 => .ok .ecbdec
    | 3, 0 => .ok .xenc
    | 3, 1 => .ok .xdec
    | 1, _ => .error .fnField
    | 2, _ => .error .fnField
    | 3, _ => .error .fnField
    | _, _ => .error .unitField

/-- The `UNIT` of a command (R71): 1 padding dispatcher, 2 ECB adapter, 3 mode multiplexer. -/
def unitOf : Instr → BitVec 4
  | .pad => 1
  | .unpad => 1
  | .ecbenc => 2
  | .ecbdec => 2
  | .xenc => 3
  | .xdec => 3

/-- The `FN` of a command (R71): 0 forward, 1 inverse. -/
def fnOf : Instr → BitVec 4
  | .pad => 0
  | .unpad => 1
  | .ecbenc => 0
  | .ecbdec => 1
  | .xenc => 0
  | .xdec => 1

/-- The command word of a command: `ZERO`, `UNIT` and `FN` side by side (R71). -/
def encode (i : Instr) : Word := 0#24 ++ unitOf i ++ fnOf i

/-- One row of spec/opcode_table.json: the command selected by the words `w` with `w AND mask = pattern`. -/
structure OpcodeRow where
  instr : Instr
  pattern : Word
  mask : Word
  deriving DecidableEq, Repr

/-- spec/opcode_table.json, row by row (R71: "Each is selected by the whole word (mask 0xFFFFFFFF)"). -/
def opcodeTable : List OpcodeRow :=
  [ ⟨.pad,    0x00000010, 0xFFFFFFFF⟩,
    ⟨.unpad,  0x00000011, 0xFFFFFFFF⟩,
    ⟨.ecbenc, 0x00000020, 0xFFFFFFFF⟩,
    ⟨.ecbdec, 0x00000021, 0xFFFFFFFF⟩,
    ⟨.xenc,   0x00000030, 0xFFFFFFFF⟩,
    ⟨.xdec,   0x00000031, 0xFFFFFFFF⟩ ]

/-- The row selects the word. -/
def OpcodeRow.selects (r : OpcodeRow) (w : Word) : Bool := w &&& r.mask == r.pattern

/-- The command word whose lowest `nbits` bits are those of `w` and whose other bits are 0. A command is one 32-bit
register value (R72), so there is no byte order to lay out. -/
def tableWord (nbits w : Nat) : Word := BitVec.ofNat 32 (w % 2 ^ nbits)

/-- What the decoder reads from a word numbered as spec/opcode_table.json numbers it. -/
def decodeTableWord (nbits w : Nat) : Option Instr :=
  match decode (tableWord nbits w) with
  | .ok i => some i
  | .error _ => none

end Sys2Proof
end

