-- ==== Sys2Proof/Config.lean ====
section
/-! DEFINITION. The open parameters of the hardware (R6): the cipher primitive PRIM (R9), the mode transforms MODEX
(R10) and the contents of MEM at power-up (R176). Each is an opaque constant: nothing can evaluate it, and a proof can
use of PRIM and MODEX only the laws R9 and R10 allow. `MEM_BYTES`, the fourth open parameter, is plain data of the state
(log entry 2). -/

namespace Sys2Proof

/-- The legal key lengths in bytes, `KEYLENS` of R6: "Key length must be 16, 24, or 32 bytes". -/
abbrev KeyLen (n : Nat) : Prop := n = 16 ∨ n = 24 ∨ n = 32

/-- The four modes the multiplexer hands to MODEX (R10, R28). -/
inductive ModexMode where
  | cbc
  | ctr
  | ofb
  | cfb
  deriving DecidableEq, Repr

/-- PRIM (R9): two total functions on one block. Law P1 (determinism) is that they are functions; P2 and P3 are the two
proof fields. The defaults only show that the laws can be met together: `Config.prim` is opaque. -/
structure Prim where
  /-- `PrimEnc(key, blk)`. -/
  enc : List Byte → Block → Block := fun _ b => b
  /-- `PrimDec(key, blk)`. -/
  dec : List Byte → Block → Block := fun _ b => b
  /-- Law P2, for every legal key and every block. -/
  dec_enc : ∀ (key : List Byte) (b : Block), KeyLen key.length → dec key (enc key b) = b := by intros; rfl
  /-- Law P3, for every legal key and every block. -/
  enc_dec : ∀ (key : List Byte) (b : Block), KeyLen key.length → enc key (dec key b) = b := by intros; rfl
  deriving Inhabited

/-- MODEX (R10): two total functions on a whole buffer. Laws M2 and M4 (determinism, no state between requests) are that
they are functions; M1 and M3 are the proof fields, for a legal key and a buffer of whole blocks, which is where R10
defines them. The defaults only show that the laws can be met together: `Config.modex` is opaque. -/
structure Modex where
  /-- `ModexEnc(mode, key, iv, data)`. -/
  enc : ModexMode → List Byte → Block → List Byte → List Byte := fun _ _ _ d => d
  /-- `ModexDec(mode, key, iv, data)`. -/
  dec : ModexMode → List Byte → Block → List Byte → List Byte := fun _ _ _ d => d
  /-- Law M1, encrypt direction. -/
  enc_length : ∀ (m : ModexMode) (key : List Byte) (iv : Block) (d : List Byte), KeyLen key.length →
    d.length % 16 = 0 → (enc m key iv d).length = d.length := by intros; rfl
  /-- Law M1, decrypt direction. -/
  dec_length : ∀ (m : ModexMode) (key : List Byte) (iv : Block) (d : List Byte), KeyLen key.length →
    d.length % 16 = 0 → (dec m key iv d).length = d.length := by intros; rfl
  /-- Law M3. -/
  dec_enc : ∀ (m : ModexMode) (key : List Byte) (iv : Block) (d : List Byte), KeyLen key.length →
    d.length % 16 = 0 → dec m key iv (enc m key iv d) = d := by intros; rfl
  deriving Inhabited

namespace Config

/-- The cipher primitive of this block (R9, U16). Free: only its laws are known. Log entry 3. -/
opaque prim : Prim

/-- The external mode transforms of this block (R10, U17). Free: only their laws are known. Log entry 3. -/
opaque modex : Modex

/-- `MEM_INIT` (R6, R176, U14): the byte MEM holds at an address at power-up. Free: "the model must not assume zero".
Log entry 1. -/
opaque memInit : Nat → Byte

end Config
end Sys2Proof
end

