-- ==== Sys2Proof/Machine/HostMove.lean ====
section
/-! DEFINITION. The moves of the host (R7, R21, R52, R175) and what a read answers. -/

namespace Sys2Proof.Machine

/-- One move of the host. An offset, an address and a length are naturals: which of them are moves the host has is
`HostMove.wf` (R21, R52). A register access is 32 bits wide by its type: "a model offers no other kind" (D27). -/
inductive HostMove where
  /-- `HostRegRead(off)` (R21). -/
  | regRead (off : Nat)
  /-- `HostRegWrite(off, v)` (R21); at offset 0x00 it issues the command `v` (R22). -/
  | regWrite (off : Nat) (v : Word)
  /-- `HostMemRead(addr, n)` (R52). -/
  | memRead (addr n : Nat)
  /-- `HostMemWrite(addr, bytes)` (R52). -/
  | memWrite (addr : Nat) (bytes : List Byte)
  /-- `Reset` (R175). -/
  | reset
  deriving DecidableEq, Repr

/-- What a read move answers to the host. -/
inductive Reply where
  /-- The register value `HostRegRead` returns (R21). -/
  | word (v : Word)
  /-- The bytes `HostMemRead` returns, lowest address first (R52). -/
  | bytes (v : List Byte)
  deriving DecidableEq, Repr

end Sys2Proof.Machine
end

