-- ==== Sys2Proof/Machine/State.lean ====
section
/-! DEFINITION. The state of the block (10_state.md), the reasons a step can stop, and the state after reset (R45). -/

namespace Sys2Proof.Machine

/-- The fatal faults, R153. No step of the machine answers `.fault`: `raise Fatal` has the effect R157 gives it, a next
state with `STATUS.FATAL = 1`, and R158 says how the machine goes on. `Safety.checkedStep` raises these, to report such a
state as R157 asks of a model. Safe: the report only stops a run that the machine itself continues. Log entry 6. -/
inductive Fault where
  /-- `F_SRCLEN`: `LEN mod 16 ≠ 0` inside the ECB adapter. Raised by `Safety.checkedStep` after `ECBENC`, `ECBDEC`; safe. -/
  | srcLen
  /-- `F_DSTCAP`: the destination buffer is shorter than the result. Raised by `Safety.checkedStep` after `PAD`, `ECBENC`,
  `ECBDEC`, `XENC`, `XDEC`; safe. -/
  | dstCap
  /-- `F_BOUNDS`: a buffer reaches past the end of MEM. Raised by `Safety.checkedStep` after any command; safe. -/
  | bounds
  /-- `F_OVERLAP`: source and destination overlap without starting at the same address. Raised by `Safety.checkedStep`
  after `PAD`, `ECBENC`, `ECBDEC`, `XENC`, `XDEC`; safe. -/
  | overlap
  deriving DecidableEq, Repr

/-- The moves a step refuses. Each leaves the state as it was. -/
inductive Refusal where
  /-- An instruction without a meaning, by its mnemonic in spec/opcode_table.json. Raised by no arm of `exec`: every
  command has its meaning; safe. -/
  | notModelled (mnemonic : String)
  /-- A register access at an offset that is not a multiple of 4 in 0x00 to 0xFC: "not a move the host has: the model
  refuses it and no state changes" (R21, U12). Raised by `hostRegRead`, `hostRegWrite`; safe. -/
  | regAccess
  /-- A MEM access that reaches past the end of MEM: "the model refuses it and no state changes" (R52, U13); or one of no
  byte, by the model's choice (DEDUCED, log entry 9). Raised by `hostMemRead`, `hostMemWrite`; safe. -/
  | memAccess
  deriving DecidableEq, Repr

/-- `STATUS` without its reserved bits, which have no storage (R23, R39). -/
structure Status where
  /-- `ERR`, bits 7:0 (R24). -/
  err : Byte
  /-- `FCODE`, bits 15:8 (R25). -/
  fcode : Byte
  /-- `FATAL`, bit 31 (R26). -/
  fatal : Bool
  deriving DecidableEq, Repr

/-- `CFG` without its reserved bits, which have no storage (R27, R39). -/
structure Cfg where
  /-- `MODE`, bits 7:0 (R28). -/
  mode : Byte
  /-- `PADS`, bits 15:8 (R29). -/
  pads : Byte
  deriving DecidableEq, Repr

/-- MEM (R40): its size in bytes and the bytes written since power-up, by strictly rising address. A byte that nothing
has written is not listed; what it reads as is `Memory.unlisted` (R176). -/
structure Memory where
  /-- `MEM_BYTES`: no step changes it. Log entry 2. -/
  size : Nat
  cells : List Host.Cell
  deriving DecidableEq, Repr

/-- Everything the spec gives the block (R20 to R42), and two fields of the model's own: the host sequence still to come
and the answer on the host port. -/
structure State where
  /-- `STATUS` (R23). -/
  status : Status
  /-- `CFG` (R27). -/
  cfg : Cfg
  /-- `KEYLEN.KL` (R30). -/
  keylen : Byte
  /-- `KEY0` to `KEY7` (R31). -/
  key : Vector Word 8
  /-- `IV0` to `IV3` (R33). -/
  iv : Vector Word 4
  /-- `SRC` (R34). -/
  src : Word
  /-- `LEN` (R35). -/
  len : Word
  /-- `DST` (R36). -/
  dst : Word
  /-- `DCAP` (R37). -/
  dcap : Word
  /-- `RLEN` (R38). -/
  rlen : Word
  /-- MEM (R40). -/
  mem : Memory
  /-- The model's own: the host moves still to come, the next one first (log entry 4). -/
  moves : List HostMove
  /-- The model's own: what the last move read, if it was a read (log entry 5). -/
  reply : Option Reply
  deriving DecidableEq, Repr

/-- The block after power-up and reset with the given MEM: every register at the value of R45. -/
def State.powerUp (mem : Memory) : State where
  status := ⟨0, 0, false⟩
  cfg := ⟨1, 1⟩
  keylen := 0
  key := Vector.replicate 8 0
  iv := Vector.replicate 4 0
  src := 0
  len := 0
  dst := 0
  dcap := 0
  rlen := 0
  mem := mem
  moves := []
  reply := none

/-- The machine right after reset (R45): no byte of MEM is listed, so each holds its `MEM_INIT` (R176). The size is the
one of the spec's test vectors (DESIGN CHOICE, log entry 2); no host move is placed (log entry 4). -/
def State.reset : State := .powerUp ⟨65536, []⟩

end Sys2Proof.Machine
end

