-- ==== Sys2Proof/Machine/Flags.lean ====
section
/-! DEFINITION. The fields of `STATUS`, the block's only flags (R44): the numeric codes of R150 and R153, the word the
host reads (R23), and what each of the three endings of a command writes to them (R155 to R157). -/

namespace Sys2Proof.Machine

/-- The recoverable errors of R150. `unknownOutput` and `decodeFormat` are reserved and raised by nothing (R152). -/
inductive ErrCode where
  | unknownMode
  | unknownPadding
  | unknownOutput
  | blockUnpadding
  | blockLength
  | keySize
  | decodeFormat
  | illegalCmd
  deriving DecidableEq, Repr

/-- How a command can fail: `raise Err(code)` or `raise Fatal(fcode)` (R12). -/
inductive Raise where
  | err (c : ErrCode)
  | fatal (f : Fault)
  deriving DecidableEq, Repr

/-- The number of a recoverable error in `STATUS.ERR` (R150). -/
def ErrCode.code : ErrCode → Byte
  | .unknownMode => 1
  | .unknownPadding => 2
  | .unknownOutput => 3
  | .blockUnpadding => 4
  | .blockLength => 5
  | .keySize => 6
  | .decodeFormat => 7
  | .illegalCmd => 8

/-- The number of a fatal fault in `STATUS.FCODE` (R153). -/
def Fault.code : Fault → Byte
  | .srcLen => 1
  | .dstCap => 2
  | .bounds => 3
  | .overlap => 4

/-- The fatal fault a number in `STATUS.FCODE` stands for (R153); 0 is none, 5 to 255 are unused. -/
def Fault.ofCode (c : Byte) : Option Fault :=
  match c.toNat with
  | 1 => some .srcLen
  | 2 => some .dstCap
  | 3 => some .bounds
  | 4 => some .overlap
  | _ => none

/-- `STATUS` as the host reads it: `FATAL` in bit 31, bits 30:16 zero, `FCODE` in 15:8, `ERR` in 7:0 (R23). -/
def Status.toWord (t : Status) : Word := BitVec.ofBool t.fatal ++ 0#15 ++ t.fcode ++ t.err

/-- `Done` writes 0 to `ERR` and leaves `FATAL` and `FCODE` (R155). -/
def Status.afterDone (t : Status) : Status := { t with err := 0 }

/-- `raise Err` writes its code to `ERR` and leaves `FATAL` and `FCODE` (R156). -/
def Status.afterErr (t : Status) (c : ErrCode) : Status := { t with err := c.code }

/-- `raise Fatal` sets `FATAL`, writes its code to `FCODE` and leaves `ERR` (R157). -/
def Status.afterFatal (t : Status) (f : Fault) : Status := { t with fcode := f.code, fatal := true }

end Sys2Proof.Machine
end

