-- ==== Sys2Proof/Machine/Ops.lean ====
section
/-! DEFINITION. The shared operations: reading and writing MEM (R12, R40), the three ways a command ends (R155 to R157),
the frame every command runs in (R26), and Reset, the only way out of a fatal fault (R158, R175). -/

namespace Sys2Proof.Machine

/-! ## MEM -/

/-- What a byte of MEM that nothing has written reads as: its `MEM_INIT`, an arbitrary byte (R176). Log entry 1. -/
def Memory.unlisted (a : Nat) : Byte := Config.memInit a

/-- The byte listed for address `a`, if one is. -/
def Memory.lookup : List Host.Cell → Nat → Option Byte
  | [], _ => none
  | c :: cs, a => if c.1 = a then some c.2 else Memory.lookup cs a

/-- List byte `b` for address `a`, in its place in the rising order, in place of what was listed for `a`. -/
def Memory.insertCell (a : Nat) (b : Byte) : List Host.Cell → List Host.Cell
  | [] => [(a, b)]
  | c :: cs =>
    if a < c.1 then (a, b) :: c :: cs
    else if a = c.1 then (a, b) :: cs
    else c :: Memory.insertCell a b cs

/-- MEM[a]: the byte at address `a` (R40). -/
def Memory.byteAt (m : Memory) (a : Nat) : Byte := (Memory.lookup m.cells a).getD (Memory.unlisted a)

/-- MEM[a] <- b. -/
def Memory.writeByte (m : Memory) (a : Nat) (b : Byte) : Memory := { m with cells := Memory.insertCell a b m.cells }

/-- `MemRead(addr, n)` (R12): the bytes MEM[addr] to MEM[addr + n - 1]. -/
def Memory.read (m : Memory) (addr n : Nat) : List Byte := (List.range n).map fun i => m.byteAt (addr + i)

/-- `MemWrite(addr, n, v)` (R12): MEM[addr + i] <- v[i] for `0 ≤ i < n`. Every caller gives `v` of length `n`, so the
default of `getD` is never stored (`Laws`: each command's result has the length it stores). -/
def Memory.write (m : Memory) (addr : Nat) : Nat → List Byte → Memory
  | 0, _ => m
  | n + 1, v => (Memory.write m addr n v).writeByte (addr + n) (v.getD n 0)

/-- The `n` bytes from `addr` exist: `addr + n ≤ MEM_BYTES`, in unbounded naturals (R53, R56). -/
def Memory.inBounds (m : Memory) (addr n : Nat) : Bool := decide (addr + n ≤ m.size)

/-- The canonical form of MEM: addresses strictly rising, each inside MEM, and MEM no larger than R6 allows. An unlisted
byte has no value the model knows, so no entry can repeat it, and equal memories are equal data. Log entry 1. -/
abbrev Memory.wf (m : Memory) : Prop :=
  m.cells.Pairwise (fun c d => c.1 < d.1) ∧ (∀ c ∈ m.cells, c.1 < m.size) ∧ m.size ≤ 2 ^ 32

/-! ## How a command ends -/

/-- The one `MemWrite` of a command: `len` bytes `data` from `addr`. -/
structure Store where
  addr : Nat
  len : Nat
  data : List Byte
  deriving DecidableEq, Repr

/-- The ending of a command (R70: "Each `execute` ends by exactly one of"): `Done(rlen)` with the command's `MemWrite`,
if it has one, or a `raise`. -/
inductive Ending where
  | done (rlen : Nat) (store : Option Store)
  | raise (r : Raise)
  deriving DecidableEq, Repr

/-- The `MemWrite` of a command, if it has one. -/
def Memory.apply (m : Memory) : Option Store → Memory
  | none => m
  | some st => m.write st.addr st.len st.data

/-- `Done(rlen)` (R155): the `MemWrite`, `RLEN <- rlen` and `ERR <- 0`, all at once. -/
def State.done (s : State) (rlen : Nat) (store : Option Store) : State :=
  { s with mem := s.mem.apply store, rlen := BitVec.ofNat 32 rlen, status := s.status.afterDone }

/-- `raise Err(code)` (R156): `ERR <- code`, `RLEN <- 0`. -/
def State.raiseErr (s : State) (c : ErrCode) : State := { s with status := s.status.afterErr c, rlen := 0 }

/-- `raise Fatal(fcode)` (R157): `FATAL <- 1`, `FCODE <- fcode`. This is the block's one exception entry; nothing is
saved and control goes nowhere (R161). -/
def State.raiseFatal (s : State) (f : Fault) : State := { s with status := s.status.afterFatal f }

/-- `Reset` (R175): every register takes its value of R45 and MEM is kept. The one return from a fatal fault (R158). The
host sequence still to come is the host's and stays. -/
def State.resetMove (s : State) : State := { State.powerUp s.mem with moves := s.moves, reply := s.reply }

/-- A `raise`, of either kind. -/
def State.take (s : State) : Raise → State
  | .err c => s.raiseErr c
  | .fatal f => s.raiseFatal f

/-- The state an ending leaves. -/
def State.finish (s : State) : Ending → State
  | .done r st => s.done r st
  | .raise r => s.take r

/-- One check of a command: it raises `r` unless its condition holds. -/
def require (ok : Prop) [Decidable ok] (r : Raise) : Option Raise := if ok then none else some r

/-- The first check of a list that raises, if one does: "the first `raise` its pseudocode reaches, top to bottom"
(R159). -/
def firstRaise : List (Option Raise) → Option Raise
  | [] => none
  | some r :: _ => some r
  | none :: cs => firstRaise cs

/-- A command's checks in their order, then what it does when none raises. -/
def checked (checks : List (Option Raise)) (ending : Ending) : Ending :=
  match firstRaise checks with
  | some r => .raise r
  | none => ending

/-- The frame of a command: "While it is 1 the block executes no command" (R26, R70 first line); otherwise the whole
effect of its ending takes place in this one step (R8). -/
def command (body : State → Ending) (s : State) : Host.Outcome State Fault Refusal :=
  .next (if s.status.fatal then s else s.finish (body s))

/-- An illegal command word (R73): `raise Err(ERR_ILLEGAL_CMD)`, in the same frame as a command. -/
def illegalCommand (s : State) : Host.Outcome State Fault Refusal :=
  command (fun _ => .raise (.err .illegalCmd)) s

end Sys2Proof.Machine
end

