-- ==== Sys2Proof/Machine/Operands.lean ====
section
/-! DEFINITION. Where a command takes its operands from: the register map and the host's view of it (R20 to R39), the key
and IV sequences (R31, R33, R58), the two buffers (R50) and the checks on them (R53 to R55, R111, R112, R125). -/

namespace Sys2Proof.Machine

/-! ## The register space -/

/-- The registers of the register space (R20). -/
inductive Reg where
  | cmd
  | status
  | cfg
  | keylen
  | key (i : Fin 8)
  | iv (i : Fin 4)
  | src
  | len
  | dst
  | dcap
  | rlen
  | reserved
  deriving DecidableEq, Repr

/-- The register at a 32-bit slot of the register space, `slot = offset / 4` (R20). -/
def slotReg (slot : Nat) : Reg :=
  match slot with
  | 0 => .cmd
  | 1 => .status
  | 2 => .cfg
  | 3 => .keylen
  | 16 => .src
  | 17 => .len
  | 18 => .dst
  | 19 => .dcap
  | 20 => .rlen
  | n =>
    if 4 ≤ n ∧ n < 12 then .key (Fin.ofNat 8 (n - 4))
    else if 12 ≤ n ∧ n < 16 then .iv (Fin.ofNat 4 (n - 12))
    else .reserved

/-- The register at a byte offset, for the offsets the host can name: multiples of 4 in 0x00 to 0xFC (R21). -/
def regAt (off : Nat) : Option Reg :=
  if off % 4 = 0 ∧ off ≤ 0xFC then some (slotReg (off / 4)) else none

/-- The offset of a register, R20's table read the other way; for a reserved register the first reserved offset. -/
def Reg.offset : Reg → Nat
  | .cmd => 0x00
  | .status => 0x04
  | .cfg => 0x08
  | .keylen => 0x0C
  | .key i => 0x10 + 4 * i.val
  | .iv i => 0x30 + 4 * i.val
  | .src => 0x40
  | .len => 0x44
  | .dst => 0x48
  | .dcap => 0x4C
  | .rlen => 0x50
  | .reserved => 0x54

/-- `CFG` as the host reads it: bits 31:16 zero, `PADS` in 15:8, `MODE` in 7:0 (R27). -/
def Cfg.toWord (c : Cfg) : Word := 0#16 ++ c.pads ++ c.mode

/-- What a write to `CFG` stores: bits 15:0 as given (R27). -/
def Cfg.ofWord (v : Word) : Cfg := ⟨v.extractLsb' 0 8, v.extractLsb' 8 8⟩

/-- The value the host reads from a register (R20, R21): reserved registers and bits, and `CMD`, read 0 (R22, R39). -/
def readReg (s : State) : Reg → Word
  | .cmd => 0
  | .status => s.status.toWord
  | .cfg => s.cfg.toWord
  | .keylen => 0#24 ++ s.keylen
  | .key i => s.key[i]
  | .iv i => s.iv[i]
  | .src => s.src
  | .len => s.len
  | .dst => s.dst
  | .dcap => s.dcap
  | .rlen => s.rlen
  | .reserved => 0

/-- What a host write stores in a register, with `FATAL = 0` (R21, R27, R30, R32): nothing in a read-only or reserved
one. `CMD` has no storage (R22); the command it issues is `HostPort`'s. -/
def storeReg (s : State) (r : Reg) (v : Word) : State :=
  match r with
  | .cmd => s
  | .status => s
  | .cfg => { s with cfg := Cfg.ofWord v }
  | .keylen => { s with keylen := v.extractLsb' 0 8 }
  | .key i => { s with key := s.key.set i v }
  | .iv i => { s with iv := s.iv.set i v }
  | .src => { s with src := v }
  | .len => { s with len := v }
  | .dst => { s with dst := v }
  | .dcap => { s with dcap := v }
  | .rlen => s
  | .reserved => s

/-! ## The key and the IV -/

/-- Byte `j` of a register bank: bits `8(j mod 4) + 7 : 8(j mod 4)` of register `j div 4` (R31, R33, R58). A byte past
the bank is 0; no command reads one (R31: `key` is "defined only when `KL` is 16, 24 or 32"). -/
def bankByte (bank : List Word) (j : Nat) : Byte := (bank.getD (j / 4) 0).extractLsb' (8 * (j % 4)) 8

/-- `key`: key bytes 0 to `KL - 1` (R12, R31). -/
def State.keyBytes (s : State) : List Byte := (List.range s.keylen.toNat).map (bankByte s.key.toList)

/-- `iv`: IV bytes 0 to 15 (R12, R33). -/
def State.ivBlock (s : State) : Block := Vector.ofFn fun j => bankByte s.iv.toList j.val

/-! ## The buffers and the geometry checks -/

/-- A buffer of MEM: its first address and its length (R50). -/
structure Buffer where
  addr : Nat
  len : Nat
  deriving DecidableEq, Repr

/-- The source buffer: `LEN` bytes from `SRC` (R50). -/
def State.source (s : State) : Buffer := ⟨s.src.toNat, s.len.toNat⟩

/-- The destination buffer: `DCAP` bytes from `DST` (R50). -/
def State.dest (s : State) : Buffer := ⟨s.dst.toNat, s.dcap.toNat⟩

/-- `OverlapOK` (R54). -/
abbrev State.overlapOK (s : State) : Prop :=
  s.dest.addr = s.source.addr ∨ s.source.len = 0 ∨ s.dest.len = 0
    ∨ s.source.addr + s.source.len ≤ s.dest.addr ∨ s.dest.addr + s.dest.len ≤ s.source.addr

/-- The bounds check of one buffer (R53): its end is taken as an unbounded sum (R56). -/
def boundsCheck (s : State) (b : Buffer) : Option Raise := require (b.addr + b.len ≤ s.mem.size) (.fatal .bounds)

/-- The overlap check (R54). -/
def overlapCheck (s : State) : Option Raise := require s.overlapOK (.fatal .overlap)

/-- `GeometryCheck1` (R55): the source buffer only. -/
def geometryCheck1 (s : State) : List (Option Raise) := [boundsCheck s s.source]

/-- `GeometryCheck2` (R55): both buffers, then their overlap. -/
def geometryCheck2 (s : State) : List (Option Raise) :=
  [boundsCheck s s.source, boundsCheck s s.dest, overlapCheck s]

/-! ## The checks of the document -/

/-- `SchemeOK` or `ERR_UNKNOWN_PADDING` (R90). -/
def schemeCheck (s : State) : Option Raise :=
  require (s.cfg.pads.toNat = 0 ∨ s.cfg.pads.toNat = 1) (.err .unknownPadding)

/-- `KeyCheck` (R111). -/
def keyCheck (s : State) : Option Raise := require (KeyLen s.keylen.toNat) (.err .keySize)

/-- The first precondition of the adapter (R112): `F_SRCLEN`. -/
def srcLenCheck (s : State) : Option Raise := require (s.source.len % 16 = 0) (.fatal .srcLen)

/-- The room for a result of `n` bytes (R95, R112, R127): `F_DSTCAP`. -/
def dstCapCheck (s : State) (n : Nat) : Option Raise := require (n ≤ s.dest.len) (.fatal .dstCap)

/-- `AdapterCheck` (R112): the two in the order the document states them. -/
def adapterCheck (s : State) : List (Option Raise) := [srcLenCheck s, dstCapCheck s s.source.len]

/-- `LengthCheck` (R125): the same condition, recoverable at the dispatcher. -/
def lengthCheck (s : State) : Option Raise := require (s.source.len % 16 = 0) (.err .blockLength)

/-! ## The mode tag -/

/-- The recognised modes: the ECB adapter, or one that MODEX supplies (R28). -/
inductive Mode where
  | ecb
  | modex (m : ModexMode)
  deriving DecidableEq, Repr

/-- The mode a tag of `CFG.MODE` selects; 5 to 255 are unrecognised (R28). -/
def modeOf (tag : Byte) : Option Mode :=
  match tag.toNat with
  | 0 => some .ecb
  | 1 => some (.modex .cbc)
  | 2 => some (.modex .ctr)
  | 3 => some (.modex .ofb)
  | 4 => some (.modex .cfb)
  | _ => none

end Sys2Proof.Machine
end

