-- ==== Sys2Proof/Machine/Ecb.lean ====
section
/-! DEFINITION. The ECB adapter (41_ecb_adapter.md): the transform on a buffer, and `ECBENC` and `ECBDEC`. -/

namespace Sys2Proof.Machine

/-- The block of a stride: its 16 bytes in ascending address order (R58). Every stride given has 16 bytes, so the
default of `getD` is never used. -/
def blockOf (stride : List Byte) : Block := Vector.ofFn fun i => stride.getD i.val 0

/-- `f` on each of the first `count` strides of `s`, in ascending order (R110). -/
def strides (f : Block → Block) : Nat → List Byte → List Byte
  | 0, _ => []
  | count + 1, s => (f (blockOf (s.take 16))).toList ++ strides f count (s.drop 16)

/-- The ECB transform of a buffer of `len(s) / 16` strides by a function on one block (R110). -/
def ecb (f : Block → Block) (s : List Byte) : List Byte := strides f (s.length / 16) s

/-- `EcbEnc(key, s)` (R110). -/
def ecbEnc (key s : List Byte) : List Byte := ecb (Config.prim.enc key) s

/-- `EcbDec(key, s)` (R110). -/
def ecbDec (key s : List Byte) : List Byte := ecb (Config.prim.dec key) s

/-- The last lines of the four cipher commands (R113, R114, R127, R128): read the source whole, store the transform of
it at `DST`, and end with result length `LEN` (R57). -/
def transformEnding (transform : List Byte → List Byte) (s : State) : Ending :=
  .done s.source.len (some ⟨s.dest.addr, s.source.len, transform (s.mem.read s.source.addr s.source.len)⟩)

/-- The checks of the adapter in their order (R113, R159). -/
def adapterChecks (s : State) : List (Option Raise) := geometryCheck2 s ++ [keyCheck s] ++ adapterCheck s

/-- The pseudocode of `ECBENC` (R113). -/
def ecbencEnding (s : State) : Ending := checked (adapterChecks s) (transformEnding (ecbEnc s.keyBytes) s)

/-- The pseudocode of `ECBDEC` (R114). -/
def ecbdecEnding (s : State) : Ending := checked (adapterChecks s) (transformEnding (ecbDec s.keyBytes) s)

/-- `ECBENC` (R113). -/
def execEcbenc (s : State) : Host.Outcome State Fault Refusal := command ecbencEnding s

/-- `ECBDEC` (R114). -/
def execEcbdec (s : State) : Host.Outcome State Fault Refusal := command ecbdecEnding s

end Sys2Proof.Machine
end

