-- ==== Sys2Proof/Machine/Multiplexer.lean ====
section
/-! DEFINITION. The mode multiplexer (42_mode_dispatch.md): the transform a mode selects, and `XENC` and `XDEC`. -/

namespace Sys2Proof.Machine

/-- `ModeSelect(ENC)` for a recognised mode (R126). The ECB arm reads no IV. -/
def encTransform (s : State) : Mode → List Byte → List Byte
  | .ecb => ecbEnc s.keyBytes
  | .modex m => Config.modex.enc m s.keyBytes s.ivBlock

/-- `ModeSelect(DEC)` for a recognised mode (R126). -/
def decTransform (s : State) : Mode → List Byte → List Byte
  | .ecb => ecbDec s.keyBytes
  | .modex m => Config.modex.dec m s.keyBytes s.ivBlock

/-- The pseudocode of `XENC` and `XDEC` (R127, R128), for the transforms of one direction: geometry, key, length, mode,
and last the room at the destination. -/
def dispatchEnding (transform : State → Mode → List Byte → List Byte) (s : State) : Ending :=
  checked (geometryCheck2 s ++ [keyCheck s, lengthCheck s])
    (match modeOf s.cfg.mode with
      | none => .raise (.err .unknownMode)
      | some m => checked [dstCapCheck s s.source.len] (transformEnding (transform s m) s))

/-- The pseudocode of `XENC` (R127). -/
def xencEnding (s : State) : Ending := dispatchEnding encTransform s

/-- The pseudocode of `XDEC` (R128). -/
def xdecEnding (s : State) : Ending := dispatchEnding decTransform s

/-- `XENC` (R127). -/
def execXenc (s : State) : Host.Outcome State Fault Refusal := command xencEnding s

/-- `XDEC` (R128). -/
def execXdec (s : State) : Host.Outcome State Fault Refusal := command xdecEnding s

end Sys2Proof.Machine
end

