-- ==== Sys2Proof/Machine/Padding.lean ====
section
/-! DEFINITION. The padding dispatcher (40_padding.md): the functions `pad` and `unpad`, and `PAD` and `UNPAD`. -/

namespace Sys2Proof.Machine

/-- The number of padding bytes for data of length `len`, 1 to 16 (R91, R92). -/
def padCount (len : Nat) : Nat := 16 - len % 16

/-- `pad(data)` (R91). -/
def padBytes (data : List Byte) : List Byte :=
  data ++ List.replicate (padCount data.length) (BitVec.ofNat 8 (padCount data.length))

/-- `unpad(data)` (R93): the data without as many bytes as its last byte says, `none` where it fails. -/
def unpadBytes (data : List Byte) : Option (List Byte) :=
  match data.getLast? with
  | none => some data
  | some last => if last.toNat ≥ data.length then none else some (data.take (data.length - last.toNat))

/-- The pseudocode of `PAD` (R95). -/
def padEnding (s : State) : Ending :=
  let n := padCount s.source.len
  checked (geometryCheck2 s ++ [schemeCheck s, dstCapCheck s (s.source.len + n)])
    (.done (s.source.len + n)
      (some ⟨s.dest.addr, s.source.len + n, padBytes (s.mem.read s.source.addr s.source.len)⟩))

/-- The part of `UNPAD` after its checks: it reads one byte of MEM, the last of a non-empty source buffer, and writes
none (R97). -/
def unpadResult (s : State) : Ending :=
  if s.source.len = 0 then .done 0 none
  else
    let n := (s.mem.byteAt (s.source.addr + s.source.len - 1)).toNat
    if n ≥ s.source.len then .raise (.err .blockUnpadding) else .done (s.source.len - n) none

/-- The pseudocode of `UNPAD` (R97). -/
def unpadEnding (s : State) : Ending := checked (geometryCheck1 s ++ [schemeCheck s]) (unpadResult s)

/-- `PAD` (R95). -/
def execPad (s : State) : Host.Outcome State Fault Refusal := command padEnding s

/-- `UNPAD` (R97). -/
def execUnpad (s : State) : Host.Outcome State Fault Refusal := command unpadEnding s

end Sys2Proof.Machine
end

