-- ==== Sys2Proof/Machine/Dispatch.lean ====
section
/-! DEFINITION. The meaning of every command (R70). -/

namespace Sys2Proof.Machine

/-- Execute one command, whole (R8, R70). -/
def exec (i : Instr) (s : State) : Host.Outcome State Fault Refusal :=
  match i with
  | .pad => Sys2Proof.Machine.execPad s
  | .unpad => Sys2Proof.Machine.execUnpad s
  | .ecbenc => Sys2Proof.Machine.execEcbenc s
  | .ecbdec => Sys2Proof.Machine.execEcbdec s
  | .xenc => Sys2Proof.Machine.execXenc s
  | .xdec => Sys2Proof.Machine.execXdec s

end Sys2Proof.Machine
end

