-- ==== Sys2Proof/Machine/HostPort.lean ====
section
/-! DEFINITION. The moves of the host on the block (R7, R21, R22, R52, R158, R175). -/

namespace Sys2Proof.Machine

/-- A write to `CMD` (R22, R70): decode the word and execute the command whole, or end as R73 says of an illegal word.
R70's first line, `FATAL = 1`, is in `command`, which both arms run in. -/
def cmdWrite (w : Word) (s : State) : Host.Outcome State Fault Refusal :=
  match decode w with
  | .ok i => exec i s
  | .error _ => illegalCommand s

/-- `HostRegRead(off)` (R21): the register's value to the host, and no state of the block changes. -/
def hostRegRead (off : Nat) (s : State) : Host.Outcome State Fault Refusal :=
  match regAt off with
  | none => .refused .regAccess
  | some r => .next { s with reply := some (.word (readReg s r)) }

/-- `HostRegWrite(off, v)` (R21, R22): a write to `CMD` issues a command, and while `FATAL = 1` every write changes
nothing (R158). -/
def hostRegWrite (off : Nat) (v : Word) (s : State) : Host.Outcome State Fault Refusal :=
  match regAt off with
  | none => .refused .regAccess
  | some .cmd => cmdWrite v s
  | some r => .next (if s.status.fatal then s else storeReg s r v)

/-- A MEM access the host has: at least one byte, all of them inside MEM (R52). -/
def memAccessOk (m : Memory) (addr n : Nat) : Bool := decide (1 ≤ n) && m.inBounds addr n

/-- `HostMemRead(addr, n)` (R52): the bytes to the host, and no state of the block changes. -/
def hostMemRead (addr n : Nat) (s : State) : Host.Outcome State Fault Refusal :=
  if memAccessOk s.mem addr n then .next { s with reply := some (.bytes (s.mem.read addr n)) }
  else .refused .memAccess

/-- `HostMemWrite(addr, bytes)` (R52): sets those bytes and nothing else, and while `FATAL = 1` changes nothing (R158). -/
def hostMemWrite (addr : Nat) (bytes : List Byte) (s : State) : Host.Outcome State Fault Refusal :=
  if memAccessOk s.mem addr bytes.length then
    .next (if s.status.fatal then s else { s with mem := s.mem.write addr bytes.length bytes })
  else .refused .memAccess

/-- One move of the host (R7, R8). -/
def hostMove (m : HostMove) (s : State) : Host.Outcome State Fault Refusal :=
  match m with
  | .regRead off => hostRegRead off s
  | .regWrite off v => hostRegWrite off v s
  | .memRead addr n => hostMemRead addr n s
  | .memWrite addr bytes => hostMemWrite addr bytes s
  | .reset => .next s.resetMove

/-- The host takes its next move: `rest` is what it has still to make, and the answer of the move before is gone. -/
def State.takeMove (s : State) (rest : List HostMove) : State := { s with moves := rest, reply := none }

/-- The host's next move, put in front of those it has still to make. -/
def State.withMove (s : State) (m : HostMove) : State := { s with moves := m :: s.moves }

/-- The move that issues a command word: `HostRegWrite(0x00, w)` (R22). -/
def cmdMove (w : Word) : HostMove := .regWrite 0 w

/-- One step: the host makes its next move (R8, D1). With no move to make the block is idle and holds its state: "it has
no move of its own at any other time" (R7, R170). -/
def hostStep (s : State) : Host.Outcome State Fault Refusal :=
  match s.moves with
  | [] => .next s
  | m :: rest => hostMove m (s.takeMove rest)

end Sys2Proof.Machine
end

