-- ==== Sys2Proof/Machine/Step.lean ====
section
/-! DEFINITION. One step of the machine: one move of the host (R8, D1). -/

namespace Sys2Proof.Machine

/-- One step: the next host move, whole (R8). -/
def step (s : State) : Host.Outcome State Fault Refusal := hostStep s

/-- `s` with the command word `w` as the host's next move, a write to `CMD`: the very next step issues it. The block
fetches nothing (R46), so this stands for the host's program (log entry 4). -/
def State.withFetchWord (s : State) (nbits w : Nat) : State := s.withMove (cmdMove (tableWord nbits w))

end Sys2Proof.Machine
end

