-- ==== Sys2Proof/Machine/Datapath.lean ====
section
/-! DEFINITION. The adapter's datapath, stride by stride, with its two hidden registers `SBLK` and `DBLK` (R41): the second
of the two forms R57 allows a model to use. The commands use the other one (`transformEnding`). `SBLK` and `DBLK` exist
inside a command only (R41, D30), so they are here and not in `State` (log entry 7). -/

namespace Sys2Proof.Machine

/-- MEM and the two stride registers inside a command (R41). -/
structure Datapath where
  mem : Memory
  /-- `SBLK`: the stride read from the source buffer and presented to PRIM. -/
  sblk : Block
  /-- `DBLK`: the block PRIM returns, then stored to the destination buffer. -/
  dblk : Block
  deriving DecidableEq, Repr

/-- Load stride `i` of the source buffer into `SBLK`. -/
def Datapath.load (d : Datapath) (src i : Nat) : Datapath :=
  { d with sblk := blockOf (d.mem.read (src + 16 * i) 16) }

/-- Transform `SBLK` into `DBLK`. -/
def Datapath.transform (f : Block → Block) (d : Datapath) : Datapath := { d with dblk := f d.sblk }

/-- Store `DBLK` as stride `i` of the destination buffer. -/
def Datapath.store (d : Datapath) (dst i : Nat) : Datapath :=
  { d with mem := d.mem.write (dst + 16 * i) 16 d.dblk.toList }

/-- The first `count` strides in ascending order: each is loaded, transformed and stored before the next is loaded (R57,
R46). -/
def Datapath.run (f : Block → Block) (src dst : Nat) : Nat → Datapath → Datapath
  | 0, d => d
  | i + 1, d => (((Datapath.run f src dst i d).load src i).transform f).store dst i

end Sys2Proof.Machine
end

