-- ==== Sys2Proof/Machine/Facade.lean ====
section
/-! DEFINITION. The host sequences of the spec: the notation and macros of R75, R140 and R145 as lists of moves, and the
facade's `ENCRYPT` and `DECRYPT` (R141, R142). "The block never sees them, only the register writes they expand to", so no
step uses this file; the host's own control flow on the values it reads is written out here. -/

namespace Sys2Proof.Machine

/-! ## Notation and macros -/

/-- `WR <reg>, <value>` (R75). -/
def wr (r : Reg) (v : Word) : HostMove := .regWrite r.offset v

/-- `RD <reg>` (R75). -/
def rd (r : Reg) : HostMove := .regRead r.offset

/-- `MWR <addr>, <hex bytes>` (R75). -/
def mwr (addr : Nat) (bytes : List Byte) : HostMove := .memWrite addr bytes

/-- `MRD <addr>, <n>` (R75). -/
def mrd (addr n : Nat) : HostMove := .memRead addr n

/-- `CMD <mnemonic>` (R75). -/
def cmd (i : Instr) : HostMove := cmdMove (encode i)

/-- Bytes `4 i` to `4 i + 3` packed as R31 says: byte 0 in the low bits. Bytes past the end are 0. -/
def packWord (bytes : List Byte) (i : Nat) : Word :=
  bytes.getD (4 * i + 3) 0 ++ bytes.getD (4 * i + 2) 0 ++ bytes.getD (4 * i + 1) 0 ++ bytes.getD (4 * i) 0

/-- `SETKEY <hex bytes>` (R75): the length, then every word of the bank the bytes reach. -/
def setKey (bytes : List Byte) : List HostMove :=
  wr .keylen (BitVec.ofNat 32 bytes.length) ::
    (List.finRange 8).filterMap fun i => if 4 * i.val < bytes.length then some (wr (.key i) (packWord bytes i)) else none

/-- `SETIV <hex bytes>` (R75). -/
def setIv (bytes : List Byte) : List HostMove := (List.finRange 4).map fun i => wr (.iv i) (packWord bytes i)

/-- `pad(src, len, dst, cap)` (R140). -/
def padMoves (src len dst cap : Word) : List HostMove :=
  [wr .src src, wr .len len, wr .dst dst, wr .dcap cap, cmd .pad]

/-- `unpad(src, len)` (R140). -/
def unpadMoves (src len : Word) : List HostMove := [wr .src src, wr .len len, cmd .unpad]

/-- `encryptBlocks(dst, cap, src, len)` (R140). -/
def encryptBlocksMoves (dst cap src len : Word) : List HostMove :=
  [wr .src src, wr .len len, wr .dst dst, wr .dcap cap, cmd .ecbenc]

/-- `decryptBlocks(dst, cap, src, len)` (R140). -/
def decryptBlocksMoves (dst cap src len : Word) : List HostMove :=
  [wr .src src, wr .len len, wr .dst dst, wr .dcap cap, cmd .ecbdec]

/-- `NewOptions(key, iv)` (R145): reset gives the default `CFG`, then the key and the IV. -/
def newOptionsMoves (key iv : List Byte) : List HostMove := .reset :: (setKey key ++ setIv iv)

/-- `New(options)` (R145): a mode or padding other than the default. -/
def newMoves (cfg : Word) : List HostMove := [wr .cfg cfg]

/-- The *encoding* of a host sequence: "the list of (offset, value) pairs of its register writes, in order" (R75). -/
def encodingOf (moves : List HostMove) : List (Nat × Word) :=
  moves.filterMap fun m => match m with
    | .regWrite off v => some (off, v)
    | .regRead _ => none
    | .memRead _ _ => none
    | .memWrite _ _ => none
    | .reset => none

/-! ## The facade -/

/-- Make the moves in order; a refused move stops the sequence. -/
def runMoves : List HostMove → State → Host.Outcome State Fault Refusal
  | [], s => .next s
  | m :: ms, s =>
    match hostMove m s with
    | .next t => runMoves ms t
    | .fault f => .fault f
    | .refused r => .refused r

/-- How a facade sequence ends (R141, R142). -/
inductive FacadeEnd where
  /-- Success, with the length of the result. -/
  | ok (len : Word)
  /-- `fail_keysize`. -/
  | failKeySize
  /-- `fail`, with the error in `STATUS.ERR`. -/
  | fail (err : Byte)
  /-- `dead`: `STATUS.FATAL = 1`. -/
  | dead
  /-- A move was refused: never so, every move of the sequences being one the host has. -/
  | stopped
  deriving DecidableEq, Repr

/-- How a facade sequence ends, and the state it leaves. -/
structure FacadeResult where
  ending : FacadeEnd
  state : State
  deriving DecidableEq, Repr

/-- Some moves that end in a command, then `RD STATUS -> s ; IF s.FATAL = 1 GOTO dead ; IF s.ERR != 0 GOTO fail`, then
`RD RLEN`, whose value the rest of the sequence goes on with. Reads change no state (R21). -/
def afterCommand (moves : List HostMove) (s : State) (rest : Word → State → FacadeResult) : FacadeResult :=
  match runMoves moves s with
  | .next t =>
    if (readReg t .status).getLsbD 31 then ⟨.dead, t⟩
    else if (readReg t .status).extractLsb' 0 8 ≠ 0 then ⟨.fail ((readReg t .status).extractLsb' 0 8), t⟩
    else rest (readReg t .rlen) t
  | .fault _ => ⟨.stopped, s⟩
  | .refused _ => ⟨.stopped, s⟩

/-- `ENCRYPT(src, len, dst, cap)` (R141): the key length is read first, so that errors come in the facade's order; then
`pad`, then `XENC` in place on its result. -/
def facadeEncrypt (src len dst cap : Word) (s : State) : FacadeResult :=
  if KeyLen (readReg s .keylen).toNat then
    afterCommand (padMoves src len dst cap) s fun plen t =>
      afterCommand [wr .src dst, wr .len plen, cmd .xenc] t fun clen u => ⟨.ok clen, u⟩
  else ⟨.failKeySize, s⟩

/-- `DECRYPT(src, len, dst, cap)` (R142): the key length, then `XDEC`, then `unpad` of its result. -/
def facadeDecrypt (src len dst cap : Word) (s : State) : FacadeResult :=
  if KeyLen (readReg s .keylen).toNat then
    afterCommand [wr .src src, wr .len len, wr .dst dst, wr .dcap cap, cmd .xdec] s fun tlen t =>
      afterCommand (unpadMoves dst tlen) t fun plen u => ⟨.ok plen, u⟩
  else ⟨.failKeySize, s⟩

end Sys2Proof.Machine
end

