-- ==== Sys2Proof/WellFormed.lean ====
section
/-! DEFINITION. Which commands and which host moves are well formed. -/

namespace Sys2Proof

/-- A command carries no operand (R74), so there is nothing in one to be ill formed. -/
def Instr.wf : Instr → Bool
  | .pad => true
  | .unpad => true
  | .ecbenc => true
  | .ecbdec => true
  | .xenc => true
  | .xdec => true

namespace Machine

/-- The moves the host has on a given MEM: register offsets that are multiples of 4 in 0x00 to 0xFC (R21), MEM accesses of
at least one byte inside MEM (R52). -/
def HostMove.wf (m : Memory) : HostMove → Bool
  | .regRead off => (regAt off).isSome
  | .regWrite off _ => (regAt off).isSome
  | .memRead addr n => memAccessOk m addr n
  | .memWrite addr bytes => memAccessOk m addr bytes.length
  | .reset => true

end Machine
end Sys2Proof
end

