-- ==== Sys2Proof/Safety.lean ====
section
/-! DEFINITION. What counts as a safe run: no fatal fault (R26, R157), no refused move (R21, R52), and the invariant every
reachable state meets. -/

namespace Sys2Proof.Machine

/-- The values the rules write to `STATUS`: `ERR` is 0 or a code some command raises, never 3, 7 or above 8 (R150, R152);
`FCODE` is 0 exactly while `FATAL = 0` and at most 4 (R25, R153). -/
abbrev Status.ok (t : Status) : Prop :=
  t.err.toNat ∈ [0, 1, 2, 4, 5, 6, 8] ∧ (t.fatal = false ↔ t.fcode = 0) ∧ t.fcode.toNat ≤ 4

/-- The invariant of the block: MEM in its canonical form, `STATUS` holding only values the rules write, and a result
length no larger than MEM (R56: "Every value a command writes to `RLEN` is at most `x[DCAP]` or `x[LEN]`"). -/
abbrev State.inv (s : State) : Prop := s.mem.wf ∧ s.status.ok ∧ s.rlen.toNat ≤ s.mem.size

/-- The fatal fault a state stands in, if it stands in one (R26: "A model treats a state with `FATAL = 1` as a fault"). -/
def State.fatalFault (s : State) : Option Fault := if s.status.fatal then Fault.ofCode s.status.fcode else none

/-- A step that reports a fatal outcome as a fault, as R157 asks of a model: the state is never a final state. Log entry
6. -/
def checkedStep (s : State) : Host.Outcome State Fault Refusal :=
  match step s with
  | .next t =>
    match t.fatalFault with
    | some f => .fault f
    | none => .next t
  | .fault f => .fault f
  | .refused r => .refused r

/-- `k` steps from `s` all have a next state, with `FATAL = 0` throughout: the premise R157 puts on every claim about a
host sequence. -/
def safeRun : Nat → State → Bool
  | 0, s => !s.status.fatal
  | k + 1, s =>
    !s.status.fatal && match step s with
      | .next t => safeRun k t
      | .fault _ => false
      | .refused _ => false

end Sys2Proof.Machine
end

