-- ==== Sys2Proof/Certificates/Slice0/Obligations.lean ====
section
/-! DEFINITION. What is claimed of the model, one `def Obligations.<Name> : Prop` each. The vocabulary below writes the
spec's conditions, numbers and tables out again, apart from the model's own functions. -/

namespace Sys2Proof.Machine.Claim

/-! ## Vocabulary -/

/-- The command words of R71. -/
def word : Instr → Word
  | .pad => 0x00000010
  | .unpad => 0x00000011
  | .ecbenc => 0x00000020
  | .ecbdec => 0x00000021
  | .xenc => 0x00000030
  | .xdec => 0x00000031

/-- The fields (`UNIT`, `FN`) of R71. -/
def fields : Instr → Nat × Nat
  | .pad => (1, 0)
  | .unpad => (1, 1)
  | .ecbenc => (2, 0)
  | .ecbdec => (2, 1)
  | .xenc => (3, 0)
  | .xdec => (3, 1)

/-- The source buffer is in bounds, in unbounded naturals (R53, R56). -/
abbrev SourceFits (s : State) : Prop := s.src.toNat + s.len.toNat ≤ s.mem.size

/-- The destination buffer is in bounds, in unbounded naturals (R53, R56). -/
abbrev DestFits (s : State) : Prop := s.dst.toNat + s.dcap.toNat ≤ s.mem.size

/-- `OverlapOK` (R54) of a source buffer and a destination buffer. -/
abbrev ApartAt (src len dst cap : Nat) : Prop :=
  dst = src ∨ len = 0 ∨ cap = 0 ∨ src + len ≤ dst ∨ dst + cap ≤ src

/-- `OverlapOK` (R54). -/
abbrev Apart (s : State) : Prop := ApartAt s.src.toNat s.len.toNat s.dst.toNat s.dcap.toNat

/-- `GeometryCheck2` passes (R55). -/
abbrev Geometry (s : State) : Prop := SourceFits s ∧ DestFits s ∧ Apart s

/-- `SchemeOK` (R90). -/
abbrev Scheme (s : State) : Prop := s.cfg.pads.toNat = 0 ∨ s.cfg.pads.toNat = 1

/-- The number of padding bytes (R91). -/
abbrev padding (len : Nat) : Nat := 16 - len % 16

/-- How a command ends, with the numbers of R150 and R153. -/
inductive Out where
  | done
  | err (code : Nat)
  | fatal (fcode : Nat)
  deriving DecidableEq, Repr

/-- The whole effect of `raise Err(code)` (R156). -/
abbrev errState (s : State) (code : Nat) : State :=
  { s with status := { s.status with err := BitVec.ofNat 8 code }, rlen := 0 }

/-- The whole effect of `raise Fatal(fcode)` (R157). -/
abbrev fatalState (s : State) (fcode : Nat) : State :=
  { s with status := { s.status with fcode := BitVec.ofNat 8 fcode, fatal := true } }

/-- How a command that ran to `t` has ended. -/
def outOf (t : State) : Out :=
  if t.status.fatal then .fatal t.status.fcode.toNat
  else if t.status.err = 0 then .done else .err t.status.err.toNat

/-- R159's table: each command's checks in their order, as (the check fails, how the command then ends). -/
def priority (s : State) : Instr → List (Bool × Out)
  | .pad =>
    [(¬SourceFits s, .fatal 3), (¬DestFits s, .fatal 3), (¬Apart s, .fatal 4), (¬Scheme s, .err 2),
      (s.dcap.toNat < s.len.toNat + padding s.len.toNat, .fatal 2)]
  | .unpad =>
    [(¬SourceFits s, .fatal 3), (¬Scheme s, .err 2), (s.len = 0, .done),
      ((s.mem.byteAt (s.src.toNat + s.len.toNat - 1)).toNat ≥ s.len.toNat, .err 4)]
  | .ecbenc | .ecbdec =>
    [(¬SourceFits s, .fatal 3), (¬DestFits s, .fatal 3), (¬Apart s, .fatal 4), (¬KeyLen s.keylen.toNat, .err 6),
      (s.len.toNat % 16 ≠ 0, .fatal 1), (s.dcap.toNat < s.len.toNat, .fatal 2)]
  | .xenc | .xdec =>
    [(¬SourceFits s, .fatal 3), (¬DestFits s, .fatal 3), (¬Apart s, .fatal 4), (¬KeyLen s.keylen.toNat, .err 6),
      (s.len.toNat % 16 ≠ 0, .err 5), (5 ≤ s.cfg.mode.toNat, .err 1), (s.dcap.toNat < s.len.toNat, .fatal 2)]

/-- How the first check that fails ends the command; `Done` when none does (R159). -/
def firstOut (checks : List (Bool × Out)) : Out :=
  match checks.find? (·.1) with
  | some c => c.2
  | none => .done

/-- R154's table: how each command can end. -/
def table : Instr → List Out
  | .pad => [.done, .err 2, .fatal 2, .fatal 3, .fatal 4]
  | .unpad => [.done, .err 2, .err 4, .fatal 3]
  | .ecbenc | .ecbdec => [.done, .err 6, .fatal 1, .fatal 2, .fatal 3, .fatal 4]
  | .xenc | .xdec => [.done, .err 1, .err 5, .err 6, .fatal 2, .fatal 3, .fatal 4]

/-- From `s` to `t` nothing has changed but the bytes of MEM, `RLEN <- rlen` and `ERR <- 0` (R155). -/
abbrev DoneOnly (s t : State) (rlen : Nat) : Prop :=
  t = { s with mem := t.mem, rlen := t.rlen, status := { s.status with err := 0 } } ∧
    t.rlen.toNat = rlen ∧ t.mem.size = s.mem.size

/-- Every byte of MEM outside the `n` bytes from `addr` reads as before (R51, R12). -/
abbrev SameOutside (s t : State) (addr n : Nat) : Prop :=
  ∀ a, (a < addr ∨ addr + n ≤ a) → t.mem.byteAt a = s.mem.byteAt a

/-- Stride `i` of the source buffer as a block, byte 0 at the lowest address (R58, R61). -/
def sourceStride (s : State) (i : Nat) : Block := Vector.ofFn fun k => s.mem.byteAt (s.src.toNat + 16 * i + k.val)

/-- What R126 selects in the encrypt direction for a recognised mode tag. -/
def encBy (s : State) (data : List Byte) : List Byte :=
  match s.cfg.mode.toNat with
  | 0 => ecbEnc s.keyBytes data
  | 1 => Config.modex.enc .cbc s.keyBytes s.ivBlock data
  | 2 => Config.modex.enc .ctr s.keyBytes s.ivBlock data
  | 3 => Config.modex.enc .ofb s.keyBytes s.ivBlock data
  | _ => Config.modex.enc .cfb s.keyBytes s.ivBlock data

/-- What R126 selects in the decrypt direction for a recognised mode tag. -/
def decBy (s : State) (data : List Byte) : List Byte :=
  match s.cfg.mode.toNat with
  | 0 => ecbDec s.keyBytes data
  | 1 => Config.modex.dec .cbc s.keyBytes s.ivBlock data
  | 2 => Config.modex.dec .ctr s.keyBytes s.ivBlock data
  | 3 => Config.modex.dec .ofb s.keyBytes s.ivBlock data
  | _ => Config.modex.dec .cfb s.keyBytes s.ivBlock data

/-- The offsets of the register space the host can name (R21). -/
abbrev Offset (off : Nat) : Prop := off % 4 = 0 ∧ off ≤ 0xFC

/-- R20's table: the number the host reads at an offset, with R22, R23, R27, R30, R31, R33 to R39. -/
def valueAt (s : State) (off : Nat) : Nat :=
  if off = 0x04 then s.status.err.toNat + 2 ^ 8 * s.status.fcode.toNat + (if s.status.fatal then 2 ^ 31 else 0)
  else if off = 0x08 then s.cfg.mode.toNat + 2 ^ 8 * s.cfg.pads.toNat
  else if off = 0x0C then s.keylen.toNat
  else if 0x10 ≤ off ∧ off ≤ 0x2C then (s.key.toList.getD ((off - 0x10) / 4) 0).toNat
  else if 0x30 ≤ off ∧ off ≤ 0x3C then (s.iv.toList.getD ((off - 0x30) / 4) 0).toNat
  else if off = 0x40 then s.src.toNat
  else if off = 0x44 then s.len.toNat
  else if off = 0x48 then s.dst.toNat
  else if off = 0x4C then s.dcap.toNat
  else if off = 0x50 then s.rlen.toNat
  else 0

/-- What a write of `v` at a read-write offset makes the offset read (R20, R27, R30); nothing elsewhere. -/
def storedAt (off : Nat) (v : Word) : Option Nat :=
  if off = 0x08 then some (v.toNat % 2 ^ 16)
  else if off = 0x0C then some (v.toNat % 2 ^ 8)
  else if 0x10 ≤ off ∧ off ≤ 0x4C then some v.toNat
  else none

/-- The move is one the host has (R21, R52, R175). -/
def HasMove (s : State) : HostMove → Prop
  | .regRead off => Offset off
  | .regWrite off _ => Offset off
  | .memRead addr n => 1 ≤ n ∧ addr + n ≤ s.mem.size
  | .memWrite addr bytes => 1 ≤ bytes.length ∧ addr + bytes.length ≤ s.mem.size
  | .reset => True

/-- What the host gets as the answer to a move: the value of a register or the bytes of MEM for a read (R21, R52), and
nothing for another move. -/
def answer (s : State) : HostMove → Option Reply
  | .regRead off => some (.word (BitVec.ofNat 32 (valueAt s off)))
  | .memRead addr n => some (.bytes ((List.range n).map fun k => s.mem.byteAt (addr + k)))
  | .regWrite _ _ => none
  | .memWrite _ _ => none
  | .reset => none

/-- The two states agree on everything R74's table says the command reads, and on MEM. -/
abbrev AgreeOn (i : Instr) (s s' : State) : Prop :=
  s.src = s'.src ∧ s.len = s'.len ∧ s.mem = s'.mem ∧
  (i ≠ .unpad → s.dst = s'.dst ∧ s.dcap = s'.dcap) ∧
  (i = .pad ∨ i = .unpad → s.cfg.pads = s'.cfg.pads) ∧
  (i = .xenc ∨ i = .xdec → s.cfg.mode = s'.cfg.mode) ∧
  (i ≠ .pad → i ≠ .unpad → s.keylen = s'.keylen ∧ s.key = s'.key) ∧
  (i = .xenc ∨ i = .xdec → 1 ≤ s.cfg.mode.toNat → s.cfg.mode.toNat ≤ 4 → s.iv = s'.iv)

/-- Two runs of one command have ended alike: the same MEM, the same kind of ending, the same `ERR` and `RLEN` where the
ending writes them, the same `FCODE` where it writes that. -/
abbrev SameEnd (t t' : State) : Prop :=
  t.mem = t'.mem ∧ t.status.fatal = t'.status.fatal ∧
  (t.status.fatal = false → t.status.err = t'.status.err ∧ t.rlen = t'.rlen) ∧
  (t.status.fatal = true → t.status.fcode = t'.status.fcode)

end Sys2Proof.Machine.Claim

open Sys2Proof Sys2Proof.Machine Sys2Proof.Machine.Claim

/-! ## Decoding and the command frame -/

/-- R71: a few command words of the spec decode to their commands, and some illegal words of R73 and V70 to none. -/
def Obligations.SpecWordsDecode : Prop :=
  decode 0x00000010 = .ok .pad ∧ decode 0x00000011 = .ok .unpad ∧ decode 0x00000020 = .ok .ecbenc ∧
  decode 0x00000021 = .ok .ecbdec ∧ decode 0x00000030 = .ok .xenc ∧ decode 0x00000031 = .ok .xdec ∧
  decode 0x00000000 = .error .unitField ∧ decode 0x00000012 = .error .fnField ∧
  decode 0x00000110 = .error .zeroField ∧ decode 0xFFFFFFFF = .error .zeroField

/-- R71: a word decodes to a command exactly when it is that command's word, which is what the encoder gives, made of
`ZERO = 0` and the command's `UNIT` and `FN`. -/
def Obligations.CommandSelectedByWholeWord : Prop :=
  ∀ i : Instr, (∀ w : Word, decode w = .ok i ↔ w = word i) ∧ encode i = word i ∧
    (word i).toNat = 16 * (fields i).1 + (fields i).2

/-- R73: the host's write of any other word to `CMD` sets `ERR` to 8 and `RLEN` to 0 and changes nothing else of the
block. -/
def Obligations.IllegalWordIsRecoverable : Prop :=
  ∀ (s : State) (w : Word) (rest : List HostMove), s.moves = .regWrite 0x00 w :: rest → s.status.fatal = false →
    (∀ i, w ≠ word i) → step s = .next (errState { s with moves := rest, reply := none } 8)

/-- R22, R70: when the host's next move writes a word that decodes to a command, the step is that command's execution,
with the move taken off the host's list; with no move to make a step holds the state (R170; the list of moves is the
model's own, log entry 4). -/
def Obligations.StepRunsDecodedCommand : Prop :=
  (∀ (s : State) (w : Word) (rest : List HostMove) (i : Instr), s.moves = .regWrite 0x00 w :: rest →
    decode w = .ok i → step s = exec i { s with moves := rest, reply := none }) ∧
  (∀ (s : State) (i : Instr), step (s.withFetchWord 32 (word i).toNat) = exec i { s with reply := none } ∧
    decodeTableWord 32 (word i).toNat = some i) ∧
  (∀ s : State, s.moves = [] → step s = .next s)

/-- R159: the first check that fails, in the order of the table, decides how a command ends, and its whole effect is
that of R156 or R157; a command none of whose checks fails ends by `Done`. With `FATAL = 1` the write is ignored before
anything, and an illegal word comes before every check. -/
def Obligations.ChecksRunInPriorityOrder : Prop :=
  (∀ (i : Instr) (s : State), s.status.fatal = false →
    match firstOut (priority s i) with
    | .err code => exec i s = .next (errState s code)
    | .fatal fcode => exec i s = .next (fatalState s fcode)
    | .done => ∃ t, exec i s = .next t ∧ outOf t = .done) ∧
  (∀ (s : State) (w : Word), s.status.fatal = true → cmdWrite w s = .next s) ∧
  (∀ (s : State) (w : Word), s.status.fatal = false → (∀ i, w ≠ word i) → cmdWrite w s = .next (errState s 8))

/-- R154: the endings a command has are exactly those of its column, and an illegal word has exactly one. -/
def Obligations.EndingsAreThoseOfTheTable : Prop :=
  (∀ (i : Instr) (o : Out),
    o ∈ table i ↔ ∃ s t, s.status.fatal = false ∧ exec i s = .next t ∧ outOf t = o) ∧
  (∀ o : Out, o = .err 8 ↔
    ∃ s t w, s.status.fatal = false ∧ (∀ i, w ≠ word i) ∧ cmdWrite w s = .next t ∧ outOf t = o)

/-! ## The three endings -/

/-- R155: a command that ends by `Done` leaves `FATAL` and `FCODE`, and writes nothing but MEM, `RLEN` and `ERR`; `RLEN`
bounds what it wrote: every byte outside the first `RLEN` of the destination buffer reads as before. -/
def Obligations.DoneWritesOnlyItsResult : Prop :=
  ∀ (i : Instr) (s t : State), s.status.fatal = false → exec i s = .next t → outOf t = .done →
    DoneOnly s t t.rlen.toNat ∧ SameOutside s t s.dst.toNat t.rlen.toNat

/-- R156: a command that ends by `raise Err` has written its code and `RLEN = 0` and nothing else; and issued again at
once it fails the same way. -/
def Obligations.ErrorLeavesEverythingElse : Prop :=
  ∀ (i : Instr) (s t : State) (code : Nat), s.status.fatal = false → exec i s = .next t → outOf t = .err code →
    t = errState s code ∧ exec i t = .next t

/-- R157: a command that ends by `raise Fatal` has written `FATAL` and `FCODE` and nothing else: `ERR`, `RLEN`, MEM and
every other register are as before the command. The model reports the outcome as a fault (R26), and as no other. -/
def Obligations.FatalWritesOnlyItsCause : Prop :=
  (∀ (i : Instr) (s t : State) (fcode : Nat), s.status.fatal = false → exec i s = .next t →
    outOf t = .fatal fcode → t = fatalState s fcode) ∧
  (∀ s t : State, s.inv → step s = .next t →
    if t.status.fatal then ∃ f, checkedStep s = .fault f ∧ f.code = t.status.fcode else checkedStep s = .next t)

/-- R158: in the frozen state every move the host has but `Reset` changes nothing of the block, and reads answer as
always; `Reset` leaves it. -/
def Obligations.FrozenUntilReset : Prop :=
  ∀ (s : State) (m : HostMove) (rest : List HostMove), s.status.fatal = true → s.moves = m :: rest → HasMove s m →
    (m ≠ .reset → step s = .next { s with moves := rest, reply := answer s m }) ∧
    (m = .reset → ∃ t, step s = .next t ∧ t.status.fatal = false)

/-! ## The register space and MEM, as the host sees them -/

/-- R20, R21: a register read answers what the table and the registers' rules give, and changes nothing of the block. -/
def Obligations.RegisterReadFollowsTheMap : Prop :=
  ∀ (s : State) (off : Nat) (rest : List HostMove), s.moves = .regRead off :: rest → Offset off →
    step s = .next { s with moves := rest, reply := some (.word (BitVec.ofNat 32 (valueAt s off))) } ∧
    valueAt s off < 2 ^ 32

/-- R21, R27, R30, R32, R39: with `FATAL = 0` a write to an offset other than `CMD` makes a read-write register read the
value, less its reserved bits, whatever the value; no other offset reads otherwise than before, and MEM is unchanged. -/
def Obligations.RegisterWriteFollowsTheMap : Prop :=
  ∀ (s : State) (off : Nat) (v : Word) (rest : List HostMove), s.moves = .regWrite off v :: rest → Offset off →
    off ≠ 0x00 → s.status.fatal = false →
    ∃ t, step s = .next t ∧ t.mem = s.mem ∧ t.moves = rest ∧
      ∀ off', Offset off' → valueAt t off' = if off' = off then (storedAt off v).getD (valueAt s off) else valueAt s off'

/-- R21, R52: a move the host has is never refused; one it does not have is refused, so no state changes. That a MEM
access of no byte is among the refused ones is the model's choice (log entry 9): R52 asks for `n >= 1` and names only
`addr + n > MEM_BYTES` as refused. -/
def Obligations.RefusedExactlyWhenNotAMove : Prop :=
  ∀ (s : State) (m : HostMove) (rest : List HostMove), s.moves = m :: rest →
    (HasMove s m ↔ ∃ t, step s = .next t) ∧ (¬HasMove s m ↔ ∃ r, step s = .refused r)

/-- R52: `HostMemRead` returns the bytes and changes nothing; `HostMemWrite` sets those bytes and changes nothing else,
and nothing at all while `FATAL = 1`; an access past the end of MEM is refused. That an access of no byte is refused too
is the model's choice (log entry 9): R52 asks for `n >= 1` and does not say what happens otherwise. -/
def Obligations.HostMemMoves : Prop :=
  (∀ (s : State) (addr n : Nat) (rest : List HostMove), s.moves = .memRead addr n :: rest → 1 ≤ n →
    addr + n ≤ s.mem.size → ∃ bytes : List Byte,
      step s = .next { s with moves := rest, reply := some (.bytes bytes) } ∧ bytes.length = n ∧
      ∀ k, k < n → bytes[k]? = some (s.mem.byteAt (addr + k))) ∧
  (∀ (s : State) (addr : Nat) (bytes : List Byte) (rest : List HostMove), s.moves = .memWrite addr bytes :: rest →
    1 ≤ bytes.length → addr + bytes.length ≤ s.mem.size → ∃ t, step s = .next t ∧
      t = { s with moves := rest, reply := none, mem := t.mem } ∧ t.mem.size = s.mem.size ∧
      (s.status.fatal = true → t.mem = s.mem) ∧
      (s.status.fatal = false → SameOutside s t addr bytes.length ∧
        ∀ k, k < bytes.length → bytes[k]? = some (t.mem.byteAt (addr + k)))) ∧
  (∀ (s : State) (addr n : Nat) (rest : List HostMove), s.moves = .memRead addr n :: rest →
    n = 0 ∨ s.mem.size < addr + n → step s = .refused .memAccess) ∧
  (∀ (s : State) (addr : Nat) (bytes : List Byte) (rest : List HostMove), s.moves = .memWrite addr bytes :: rest →
    bytes = [] ∨ s.mem.size < addr + bytes.length → step s = .refused .memAccess)

/-- R64: a later read sees the latest write: after `HostMemWrite`, a `HostMemRead` of the same bytes answers them, with
whatever other reads in between. -/
def Obligations.ReadSeesLatestWrite : Prop :=
  ∀ (s : State) (addr off a n : Nat) (bytes : List Byte) (rest : List HostMove), s.status.fatal = false →
    1 ≤ bytes.length → addr + bytes.length ≤ s.mem.size → 1 ≤ n → a + n ≤ s.mem.size → Offset off →
    s.moves = .memWrite addr bytes :: .regRead off :: .memRead a n :: .memRead addr bytes.length :: rest →
    ∃ t, Host.Core.run core 4 s = .next t ∧ t.reply = some (.bytes bytes)

/-- R33, R129, R155, R32: the configuration, the key, the IV and the operand registers change only by the host's write
to their own offset or by `Reset`. -/
def Obligations.OnlyTheHostChangesConfiguration : Prop :=
  ∀ (s t : State) (off : Nat), step s = .next t → Offset off → 0x08 ≤ off → off ≤ 0x4C →
    valueAt t off ≠ valueAt s off →
    (∃ v rest, s.moves = .regWrite off v :: rest) ∨ (∃ rest, s.moves = .reset :: rest)

/-! ## Reset -/

/-- R175, R45: `Reset` gives every register its value, in any state, and leaves MEM; it is the only move that clears
`FATAL`. -/
def Obligations.ResetGivesTheResetValues : Prop :=
  (∀ (s : State) (rest : List HostMove), s.moves = .reset :: rest →
    ∃ t, step s = .next t ∧ t.mem = s.mem ∧ t.moves = rest ∧
      ∀ off, valueAt t off = if off = 0x08 then 0x00000101 else 0) ∧
  (∀ s t : State, step s = .next t → s.status.fatal = true → t.status.fatal = false →
    ∃ rest, s.moves = .reset :: rest)

/-- R177: every command has an outcome in every state; with all operands 0 after reset, whatever MEM holds, `PAD` ends
`F_DSTCAP`, `UNPAD` ends `Done(0)` and the four cipher commands end `ERR_KEY_SIZE`, the mode being CBC and the padding
PKCS7. -/
def Obligations.CommandsAfterReset : Prop :=
  (∀ (i : Instr) (s : State), ∃ t, exec i s = .next t) ∧
  ∀ mem : Memory, exec .pad (.powerUp mem) = .next (fatalState (.powerUp mem) 2) ∧
    exec .unpad (.powerUp mem) = .next (.powerUp mem) ∧
    (∀ i ∈ [Instr.ecbenc, .ecbdec, .xenc, .xdec], exec i (.powerUp mem) = .next (errState (.powerUp mem) 6)) ∧
    (State.powerUp mem).cfg.mode = 1 ∧ (State.powerUp mem).cfg.pads = 1

/-- R45: the machine after reset reads 0x00000101 at `CFG` and 0 at every other offset, has no fault and no move to
make, and meets the invariant, as does power-up with any MEM in canonical form. Its MEM size is the model's choice (log
entry 2). -/
def Obligations.ResetMeetsTheInvariant : Prop :=
  State.reset.inv ∧ (∀ off, valueAt State.reset off = if off = 0x08 then 0x00000101 else 0) ∧
    State.reset.moves = [] ∧ ∀ mem : Memory, mem.wf → (State.powerUp mem).inv

/-! ## The key and the IV -/

/-- R31: with a legal `KL` the key is `KL` bytes, byte `j` being bits `8(j mod 4) + 7 : 8(j mod 4)` of `KEY(j div 4)`. -/
def Obligations.KeyIsPackedLittleEndian : Prop :=
  ∀ s : State, KeyLen s.keylen.toNat → s.keyBytes.length = s.keylen.toNat ∧
    ∀ j, j < s.keylen.toNat → ∃ b, s.keyBytes[j]? = some b ∧
      b.toNat = valueAt s (0x10 + 4 * (j / 4)) / 2 ^ (8 * (j % 4)) % 256

/-- R33: the IV is 16 bytes, byte `j` being bits `8(j mod 4) + 7 : 8(j mod 4)` of `IV(j div 4)`. -/
def Obligations.IvIsPackedLittleEndian : Prop :=
  ∀ (s : State) (j : Fin 16),
    (s.ivBlock[j]).toNat = valueAt s (0x30 + 4 * (j.val / 4)) / 2 ^ (8 * (j.val % 4)) % 256

/-! ## The padding dispatcher -/

/-- R91, R92: `pad(data)` is the data and then `n = 16 - (L mod 16)` bytes of value `n`, 1 to 16; its length is the least
multiple of 16 above `L`. -/
def Obligations.PadAppendsItsCount : Prop :=
  ∀ data : List Byte, ∃ n, 1 ≤ n ∧ n ≤ 16 ∧ n = 16 - data.length % 16 ∧
    padBytes data = data ++ List.replicate n (BitVec.ofNat 8 n) ∧ (padBytes data).length % 16 = 0 ∧
    ∀ m, m % 16 = 0 → data.length < m → (padBytes data).length ≤ m

/-- R93: `unpad` leaves the empty sequence, fails when the last byte is at least the length, and otherwise gives the
first `L - n` bytes, checking nothing else (R94). -/
def Obligations.UnpadTruncatesByLastByte : Prop :=
  unpadBytes [] = some [] ∧
  ∀ (front : List Byte) (n : Byte), unpadBytes (front ++ [n]) =
    if n.toNat ≥ front.length + 1 then none else some ((front ++ [n]).take (front.length + 1 - n.toNat))

/-- R95: `PAD` on operands that pass its checks writes the source bytes and then the padding at `DST`, and ends
`Done(L + n)`; every other byte of MEM and every other register is as before. -/
def Obligations.PadCompletes : Prop :=
  ∀ s : State, s.status.fatal = false → Geometry s → Scheme s →
    s.len.toNat + padding s.len.toNat ≤ s.dcap.toNat →
    ∃ t, exec .pad s = .next t ∧ DoneOnly s t (s.len.toNat + padding s.len.toNat) ∧
      (∀ k, k < s.len.toNat → t.mem.byteAt (s.dst.toNat + k) = s.mem.byteAt (s.src.toNat + k)) ∧
      (∀ k, s.len.toNat ≤ k → k < s.len.toNat + padding s.len.toNat →
        (t.mem.byteAt (s.dst.toNat + k)).toNat = padding s.len.toNat) ∧
      SameOutside s t s.dst.toNat (s.len.toNat + padding s.len.toNat)

/-- R97: `UNPAD` on operands that pass its checks ends `Done` with the length of `unpad` of the source buffer, whatever
`DST` and `DCAP` hold; it writes no byte of MEM and no other register. -/
def Obligations.UnpadCompletes : Prop :=
  ∀ s : State, s.status.fatal = false → SourceFits s → Scheme s →
    (s.len ≠ 0 → (s.mem.byteAt (s.src.toNat + s.len.toNat - 1)).toNat < s.len.toNat) →
    ∃ t r, exec .unpad s = .next t ∧ DoneOnly s t (List.length r) ∧ t.mem = s.mem ∧
      unpadBytes (s.mem.read s.src.toNat s.len.toNat) = some r ∧
      r = s.mem.read s.src.toNat t.rlen.toNat ∧
      t.rlen.toNat = if s.len = 0 then 0
        else s.len.toNat - (s.mem.byteAt (s.src.toNat + s.len.toNat - 1)).toNat

/-- R90: `PAD` and `UNPAD` have the same outcome under `PADS = 0` and `PADS = 1`, and under any other tag fail with
`ERR_UNKNOWN_PADDING` once the geometry checks pass, whatever the buffer holds. -/
def Obligations.PaddingSchemesAgree : Prop :=
  ∀ (i : Instr) (s : State), i = .pad ∨ i = .unpad →
    (∃ t : State, exec i { s with cfg := { s.cfg with pads := 0 } } = .next { t with cfg := { s.cfg with pads := 0 } } ∧
      exec i { s with cfg := { s.cfg with pads := 1 } } = .next { t with cfg := { s.cfg with pads := 1 } }) ∧
    (s.status.fatal = false → ¬Scheme s → SourceFits s → (i = .pad → DestFits s ∧ Apart s) →
      exec i s = .next (errState s 2))

/-- R96: after `PAD` ends by `Done`, `RLEN mod 16 = 0`, so that `XENC` on its result cannot end `ERR_BLOCK_LENGTH`. -/
def Obligations.PadMeetsTheDispatcher : Prop :=
  ∀ s t u : State, s.status.fatal = false → exec .pad s = .next t → outOf t = .done →
    t.rlen.toNat % 16 = 0 ∧ (exec .xenc { t with src := t.dst, len := t.rlen } = .next u → outOf u ≠ .err 5)

/-- R98: `unpad(pad(x)) = ok(x)` for every non-empty `x` and fails for the empty one; in commands, `PAD` and then `UNPAD`
on its result give back the original length and leave the data, or end `ERR_BLOCK_UNPADDING` when the length was 0. -/
def Obligations.UnpadUndoesPad : Prop :=
  (∀ data : List Byte, unpadBytes (padBytes data) = if data = [] then none else some data) ∧
  (∀ s t : State, s.status.fatal = false → exec .pad s = .next t → outOf t = .done →
    ∃ u, exec .unpad { t with src := t.dst, len := t.rlen } = .next u ∧
      (s.len = 0 → outOf u = .err 4) ∧
      (s.len ≠ 0 → outOf u = .done ∧ u.rlen = s.len ∧
        ∀ k, k < s.len.toNat → u.mem.byteAt (s.dst.toNat + k) = s.mem.byteAt (s.src.toNat + k)))

/-! ## The ECB adapter -/

/-- R110: on a sequence of whole strides the ECB transform has the length of the sequence, and output stride `i` is PRIM
applied to input stride `i`. -/
def Obligations.EcbIsPrimOnEachStride : Prop :=
  ∀ key s : List Byte, s.length % 16 = 0 →
    (ecbEnc key s).length = s.length ∧ (ecbDec key s).length = s.length ∧
    ∀ i, i < s.length / 16 → ∀ b : Block, b.toList = (s.drop (16 * i)).take 16 →
      ((ecbEnc key s).drop (16 * i)).take 16 = (Config.prim.enc key b).toList ∧
      ((ecbDec key s).drop (16 * i)).take 16 = (Config.prim.dec key b).toList

/-- R113, R114: `ECBENC` and `ECBDEC` on operands that pass their checks store, as stride `i` at `DST`, PRIM of stride `i`
of the source, and end `Done(LEN)`; every other byte of MEM and every other register is as before. -/
def Obligations.EcbCommandsComplete : Prop :=
  ∀ (s : State) (i : Instr) (f : List Byte → Block → Block),
    (i = .ecbenc ∧ f = Config.prim.enc) ∨ (i = .ecbdec ∧ f = Config.prim.dec) →
    s.status.fatal = false → Geometry s → KeyLen s.keylen.toNat → s.len.toNat % 16 = 0 →
    s.len.toNat ≤ s.dcap.toNat →
    ∃ t, exec i s = .next t ∧ DoneOnly s t s.len.toNat ∧ SameOutside s t s.dst.toNat s.len.toNat ∧
      ∀ (n : Nat) (k : Fin 16), n < s.len.toNat / 16 →
        t.mem.byteAt (s.dst.toNat + 16 * n + k.val) = (f s.keyBytes (sourceStride s n))[k]

/-- R115: the two transforms undo each other for a legal key; in commands, `ECBENC` from A to B and then `ECBDEC` from B
to C leaves C equal to A. -/
def Obligations.EcbdecUndoesEcbenc : Prop :=
  (∀ key s : List Byte, KeyLen key.length → s.length % 16 = 0 →
    ecbDec key (ecbEnc key s) = s ∧ ecbEnc key (ecbDec key s) = s) ∧
  (∀ (s t u : State) (c cap : Word), s.status.fatal = false → exec .ecbenc s = .next t → outOf t = .done →
    exec .ecbdec { t with src := s.dst, dst := c, dcap := cap } = .next u → outOf u = .done →
    ∀ k, k < s.len.toNat → u.mem.byteAt (c.toNat + k) = s.mem.byteAt (s.src.toNat + k))

/-- R116: result stride `n` of `ECBENC` and `ECBDEC` is a function of the key and one source stride alone: two runs with
the same key bytes, from whatever two states, agree on two result strides whose source strides are equal, at whatever
indexes. -/
def Obligations.EcbBlocksAreIndependent : Prop :=
  ∀ (i : Instr) (s s' t t' : State) (n n' : Nat) (k : Fin 16), i = .ecbenc ∨ i = .ecbdec →
    s.status.fatal = false → s'.status.fatal = false →
    exec i s = .next t → outOf t = .done → exec i s' = .next t' → outOf t' = .done →
    s.keyBytes = s'.keyBytes → n < s.len.toNat / 16 → n' < s'.len.toNat / 16 →
    sourceStride s n = sourceStride s' n' →
    t.mem.byteAt (s.dst.toNat + 16 * n + k.val) = t'.mem.byteAt (s'.dst.toNat + 16 * n' + k.val)

/-- R131: under ECB two commands on the two halves of a buffer, split at a stride, leave at `DST` what one command on the
whole buffer leaves, for `ECBENC` and `ECBDEC`, and for `XENC` and `XDEC` in mode ECB. -/
def Obligations.EcbSplitsAtStrides : Prop :=
  ∀ (i : Instr) (s t : State) (a : Word),
    i = .ecbenc ∨ i = .ecbdec ∨ ((i = .xenc ∨ i = .xdec) ∧ s.cfg.mode = 0) →
    s.mem.wf → s.status.fatal = false → exec i s = .next t → outOf t = .done →
    a.toNat % 16 = 0 → a.toNat ≤ s.len.toNat →
    ∃ u v, exec i { s with len := a, dcap := a } = .next u ∧ outOf u = .done ∧
      exec i { u with src := s.src + a, len := s.len - a, dst := s.dst + a, dcap := s.len - a } = .next v ∧
      outOf v = .done ∧ ∀ k, k < s.len.toNat → v.mem.byteAt (s.dst.toNat + k) = t.mem.byteAt (s.dst.toNat + k)

/-- R57, R41: where the checks of `ECBENC` or `ECBDEC` pass, the command leaves MEM as the datapath does that loads,
transforms and stores one stride after another in ascending order, whatever `SBLK` and `DBLK` held before. -/
def Obligations.StrideDatapathIsTheSnapshot : Prop :=
  ∀ (s : State) (i : Instr) (f : List Byte → Block → Block) (sblk dblk : Block),
    (i = .ecbenc ∧ f = Config.prim.enc) ∨ (i = .ecbdec ∧ f = Config.prim.dec) →
    s.status.fatal = false → Geometry s → KeyLen s.keylen.toNat → s.len.toNat % 16 = 0 →
    s.len.toNat ≤ s.dcap.toNat →
    ∃ t, exec i s = .next t ∧
      t.mem = (Datapath.run (f s.keyBytes) s.src.toNat s.dst.toNat (s.len.toNat / 16) ⟨s.mem, sblk, dblk⟩).mem

/-! ## The mode multiplexer -/

/-- R127: `XENC` on operands that pass its checks stores at `DST` the transform its mode selects of the whole source
buffer, and ends `Done(LEN)`; every other byte of MEM and every other register is as before. -/
def Obligations.XencCompletes : Prop :=
  ∀ s : State, s.status.fatal = false → Geometry s → KeyLen s.keylen.toNat → s.len.toNat % 16 = 0 →
    s.cfg.mode.toNat ≤ 4 → s.len.toNat ≤ s.dcap.toNat →
    ∃ t, exec .xenc s = .next t ∧ DoneOnly s t s.len.toNat ∧ SameOutside s t s.dst.toNat s.len.toNat ∧
      t.mem.read s.dst.toNat s.len.toNat = encBy s (s.mem.read s.src.toNat s.len.toNat)

/-- R128: the same of `XDEC`, in the decrypt direction. -/
def Obligations.XdecCompletes : Prop :=
  ∀ s : State, s.status.fatal = false → Geometry s → KeyLen s.keylen.toNat → s.len.toNat % 16 = 0 →
    s.cfg.mode.toNat ≤ 4 → s.len.toNat ≤ s.dcap.toNat →
    ∃ t, exec .xdec s = .next t ∧ DoneOnly s t s.len.toNat ∧ SameOutside s t s.dst.toNat s.len.toNat ∧
      t.mem.read s.dst.toNat s.len.toNat = decBy s (s.mem.read s.src.toNat s.len.toNat)

/-- R127, R128: in mode ECB the dispatcher has the adapter's outcome in every state in which `LEN mod 16 = 0`; elsewhere,
where geometry and key pass, it gives `ERR_BLOCK_LENGTH` where the adapter gives `F_SRCLEN`. -/
def Obligations.EcbModeIsTheAdapter : Prop :=
  ∀ s : State, s.cfg.mode = 0 →
    (s.len.toNat % 16 = 0 → exec .xenc s = exec .ecbenc s ∧ exec .xdec s = exec .ecbdec s) ∧
    (s.len.toNat % 16 ≠ 0 → s.status.fatal = false → Geometry s → KeyLen s.keylen.toNat →
      exec .xenc s = .next (errState s 5) ∧ exec .xdec s = .next (errState s 5) ∧
      exec .ecbenc s = .next (fatalState s 1) ∧ exec .ecbdec s = .next (fatalState s 1))

/-- R130: in every recognised mode, `XENC` from A to B and then `XDEC` from B to C with `CFG`, key and IV unchanged leaves
C equal to A. -/
def Obligations.XdecUndoesXenc : Prop :=
  ∀ (s t u : State) (c cap : Word), s.status.fatal = false → exec .xenc s = .next t → outOf t = .done →
    exec .xdec { t with src := s.dst, dst := c, dcap := cap } = .next u → outOf u = .done →
    ∀ k, k < s.len.toNat → u.mem.byteAt (c.toNat + k) = s.mem.byteAt (s.src.toNat + k)

/-! ## What a command depends on and what it touches -/

/-- R74, R42: what a command does depends on nothing but MEM and the registers its row of the table marks as read. -/
def Obligations.CommandsReadOnlyTheirOperands : Prop :=
  ∀ (i : Instr) (s s' t t' : State), s.status.fatal = false → s'.status.fatal = false → AgreeOn i s s' →
    exec i s = .next t → exec i s' = .next t' → SameEnd t t'

/-- R50: a command reads MEM only inside its source buffer, `UNPAD` only its last byte: two runs from states that differ
in MEM alone, and agree there, end alike and write the same result. It writes only inside its destination buffer. -/
def Obligations.CommandsStayInTheirBuffers : Prop :=
  ∀ (i : Instr) (s t t' : State) (mem' : Memory), s.status.fatal = false → mem'.size = s.mem.size →
    (∀ k, k < s.len.toNat → (i = .unpad → k + 1 = s.len.toNat) →
      mem'.byteAt (s.src.toNat + k) = s.mem.byteAt (s.src.toNat + k)) →
    exec i s = .next t → exec i { s with mem := mem' } = .next t' →
    t.status = t'.status ∧ t.rlen = t'.rlen ∧
    (outOf t = .done → i ≠ .unpad → ∀ k, k < t.rlen.toNat →
      t.mem.byteAt (s.dst.toNat + k) = t'.mem.byteAt (s.dst.toNat + k)) ∧
    SameOutside s t s.dst.toNat (if i = .unpad then 0 else s.dcap.toNat)

/-- R53, R54: `F_BOUNDS` is raised exactly when a buffer the command uses reaches past the end of MEM, its end taken as
an unbounded sum (R56), and `F_OVERLAP` exactly when both fit and they overlap without starting at the same address. -/
def Obligations.GeometryFaultsExactly : Prop :=
  ∀ (i : Instr) (s t : State), s.status.fatal = false → exec i s = .next t →
    (outOf t = .fatal 3 ↔ ¬SourceFits s ∨ (i ≠ .unpad ∧ ¬DestFits s)) ∧
    (outOf t = .fatal 4 ↔ i ≠ .unpad ∧ SourceFits s ∧ DestFits s ∧ ¬Apart s)

/-! ## Invariants -/

/-- Every step keeps the invariant: MEM in canonical form, `ERR` never 3, 7 or above 8, `FCODE` 0 exactly while
`FATAL = 0` and at most 4 (R25, R150, R152, R153), and `RLEN` no larger than MEM (R56). -/
def Obligations.StepKeepsTheInvariant : Prop := ∀ s t : State, s.inv → step s = .next t → t.inv

/-- R25, R26: a step sets `FATAL` only where the host's move issues a command, keeps `FCODE` while `FATAL` stays set, and
clears `FATAL` only by `Reset`. That a step never changes the size of MEM is the model's choice of holding `MEM_BYTES`, a
parameter (R6, R42), in the state (log entry 2). -/
def Obligations.FatalIsSticky : Prop :=
  ∀ s t : State, step s = .next t → t.mem.size = s.mem.size ∧
    (s.status.fatal = false → t.status.fatal = true → ∃ i rest, s.moves = .regWrite 0x00 (word i) :: rest) ∧
    (s.status.fatal = true → t.status.fatal = true → t.status.fcode = s.status.fcode) ∧
    (s.status.fatal = true → t.status.fatal = false → ∃ rest, s.moves = .reset :: rest)

/-! ## The facade -/

/-- R143 (a): for a plaintext of at least one byte, a recognised mode and padding tag, a legal key and buffers that pass
the checks, `ENCRYPT` succeeds, and `DECRYPT` of its result into any buffer that passes the checks succeeds with the
plaintext. -/
def Obligations.DecryptUndoesEncrypt : Prop :=
  ∀ (s : State) (src len dst cap : Word), s.status.fatal = false → KeyLen s.keylen.toNat → s.cfg.mode.toNat ≤ 4 →
    Scheme s → 1 ≤ len.toNat → src.toNat + len.toNat ≤ s.mem.size → dst.toNat + cap.toNat ≤ s.mem.size →
    ApartAt src.toNat len.toNat dst.toNat cap.toNat → len.toNat + padding len.toNat ≤ cap.toNat →
    ∃ clen t, facadeEncrypt src len dst cap s = ⟨.ok clen, t⟩ ∧ clen.toNat = len.toNat + padding len.toNat ∧
      ∀ (out room : Word), out.toNat + room.toNat ≤ s.mem.size →
        ApartAt dst.toNat clen.toNat out.toNat room.toNat → clen.toNat ≤ room.toNat →
        ∃ u, facadeDecrypt dst clen out room t = ⟨.ok len, u⟩ ∧
          ∀ k, k < len.toNat → u.mem.byteAt (out.toNat + k) = s.mem.byteAt (src.toNat + k)

/-- R143 (b): the empty plaintext encrypts to one block, and that block does not decrypt: `ERR_BLOCK_UNPADDING`. -/
def Obligations.EmptyPlaintextDoesNotDecrypt : Prop :=
  ∀ (s : State) (src dst cap : Word), s.status.fatal = false → KeyLen s.keylen.toNat → s.cfg.mode.toNat ≤ 4 →
    Scheme s → src.toNat ≤ s.mem.size → dst.toNat + cap.toNat ≤ s.mem.size → 16 ≤ cap.toNat →
    ∃ t, facadeEncrypt src 0 dst cap s = ⟨.ok 16, t⟩ ∧
      ∀ (out room : Word), out.toNat + room.toNat ≤ s.mem.size → ApartAt dst.toNat 16 out.toNat room.toNat →
        16 ≤ room.toNat → ∃ u, facadeDecrypt dst 16 out room t = ⟨.fail 4, u⟩

/-- R143 (d), R141: with buffers that pass the checks, `ENCRYPT` reports an illegal key length first, then an unknown
padding tag, then an unknown mode; `DECRYPT` the key length, then the mode, then the padding. -/
def Obligations.FacadeErrorsInOrder : Prop :=
  ∀ (s : State) (src len dst cap : Word), s.status.fatal = false → src.toNat + len.toNat ≤ s.mem.size →
    dst.toNat + cap.toNat ≤ s.mem.size → ApartAt src.toNat len.toNat dst.toNat cap.toNat →
    len.toNat + padding len.toNat ≤ cap.toNat →
    (¬KeyLen s.keylen.toNat → facadeEncrypt src len dst cap s = ⟨.failKeySize, s⟩ ∧
      facadeDecrypt src len dst cap s = ⟨.failKeySize, s⟩) ∧
    (KeyLen s.keylen.toNat → ¬Scheme s → (facadeEncrypt src len dst cap s).ending = .fail 2 ∧
      (s.cfg.mode.toNat ≤ 4 → len.toNat % 16 = 0 → (facadeDecrypt src len dst cap s).ending = .fail 2)) ∧
    (KeyLen s.keylen.toNat → 5 ≤ s.cfg.mode.toNat →
      (Scheme s → (facadeEncrypt src len dst cap s).ending = .fail 1) ∧
      (len.toNat % 16 = 0 → (facadeDecrypt src len dst cap s).ending = .fail 1))

/-- R140: the four macros are register writes, encoded as the rule lists them, and leave the operands in the registers
when the command is issued: running `pad(src, len, dst, cap)` is executing `PAD` with those operands. -/
def Obligations.MacrosWriteOperandsThenIssue : Prop :=
  ∀ (s : State) (src len dst cap : Word), s.status.fatal = false →
    encodingOf (padMoves src len dst cap)
      = [(0x40, src), (0x44, len), (0x48, dst), (0x4C, cap), (0x00, 0x00000010)] ∧
    runMoves (padMoves src len dst cap) s = exec .pad { s with src := src, len := len, dst := dst, dcap := cap } ∧
    runMoves (unpadMoves src len) s = exec .unpad { s with src := src, len := len } ∧
    runMoves (encryptBlocksMoves dst cap src len) s
      = exec .ecbenc { s with src := src, len := len, dst := dst, dcap := cap } ∧
    runMoves (decryptBlocksMoves dst cap src len) s
      = exec .ecbdec { s with src := src, len := len, dst := dst, dcap := cap }

/-- R145, R75: `NewOptions(key, iv)` leaves the default `CFG`, `KL` the key's length, the key's bytes in the key bank and
the IV's in the IV bank, and MEM as it was. -/
def Obligations.NewOptionsLoadsKeyAndIv : Prop :=
  ∀ (s : State) (key iv : List Byte), KeyLen key.length → iv.length = 16 →
    ∃ t, runMoves (newOptionsMoves key iv) s = .next t ∧ valueAt t 0x08 = 0x00000101 ∧ valueAt t 0x04 = 0 ∧
      t.keyBytes = key ∧ t.ivBlock.toList = iv ∧ t.mem = s.mem
end

