-- ==== Sys2Proof/Laws/Memory.lean ====
section
/-! SUPPORT. Reading and writing MEM: what a write leaves at every address, the sequences a read gives, and the canonical
form, which every operation keeps. -/

namespace Sys2Proof.Machine.Memory

/-! ## Reading back -/

theorem lookup_insertCell (a c : Nat) (b : Byte) (cs : List Host.Cell) :
    lookup (insertCell a b cs) c = if c = a then some b else lookup cs c := by
  induction cs with
  | nil => simp [insertCell, lookup, eq_comm]
  | cons d ds ih =>
    unfold insertCell
    split
    · simp [lookup, eq_comm]
    · split
      · rename_i h1 h2
        by_cases h : c = a
        · simp [lookup, h]
        · simp [lookup, h, ← h2, Ne.symm h]
      · rename_i h1 h2
        by_cases h : d.1 = c
        · have : c ≠ a := fun e => h2 (by omega)
          simp [lookup, h, this]
        · simp [lookup, h, ih]

@[simp] theorem writeByte_size (m : Memory) (a : Nat) (b : Byte) : (m.writeByte a b).size = m.size := rfl

/-- A byte written is the byte read, and every other byte is as it was. -/
theorem byteAt_writeByte (m : Memory) (a c : Nat) (b : Byte) :
    (m.writeByte a b).byteAt c = if c = a then b else m.byteAt c := by
  by_cases h : c = a <;> simp [byteAt, writeByte, lookup_insertCell, h]

@[simp] theorem write_zero (m : Memory) (addr : Nat) (v : List Byte) : m.write addr 0 v = m := rfl

@[simp] theorem write_size (m : Memory) (addr n : Nat) (v : List Byte) : (m.write addr n v).size = m.size := by
  induction n with
  | zero => rfl
  | succ n ih => simp [write, ih]

/-- What `MemWrite(addr, n, v)` leaves at every address (R12). -/
theorem byteAt_write (m : Memory) (addr n c : Nat) (v : List Byte) :
    (m.write addr n v).byteAt c = if addr ≤ c ∧ c < addr + n then v.getD (c - addr) 0 else m.byteAt c := by
  induction n with
  | zero =>
    have : ¬(addr ≤ c ∧ c < addr + 0) := by omega
    simp only [write_zero, this, if_false]
  | succ n ih =>
    simp only [write, byteAt_writeByte, ih]
    by_cases h : c = addr + n
    · have h1 : addr ≤ c ∧ c < addr + (n + 1) := by omega
      have h2 : c - addr = n := by omega
      rw [if_pos h, if_pos h1, h2]
    · rw [if_neg h]
      by_cases h1 : addr ≤ c ∧ c < addr + n
      · rw [if_pos h1, if_pos (by omega)]
      · rw [if_neg h1, if_neg (by omega)]

theorem byteAt_write_in (m : Memory) (addr n i : Nat) (v : List Byte) (h : i < n) :
    (m.write addr n v).byteAt (addr + i) = v.getD i 0 := by
  rw [byteAt_write, if_pos (by omega), Nat.add_sub_cancel_left]

theorem byteAt_write_out (m : Memory) (addr n c : Nat) (v : List Byte) (h : c < addr ∨ addr + n ≤ c) :
    (m.write addr n v).byteAt c = m.byteAt c := by
  rw [byteAt_write, if_neg (by omega)]

/-! ## Sequences -/

@[simp] theorem read_length (m : Memory) (addr n : Nat) : (m.read addr n).length = n := by simp [read]

theorem getElem_read (m : Memory) (addr n i : Nat) (h : i < (m.read addr n).length) :
    (m.read addr n)[i] = m.byteAt (addr + i) := by simp [read]

theorem getD_read (m : Memory) (addr n i : Nat) (h : i < n) : (m.read addr n).getD i 0 = m.byteAt (addr + i) := by
  rw [List.getD_eq_getElem _ _ (by simpa using h), getElem_read]

/-- A read is settled by the bytes it reads. -/
theorem read_congr (m m' : Memory) (addr addr' n : Nat)
    (h : ∀ i, i < n → m.byteAt (addr + i) = m'.byteAt (addr' + i)) : m.read addr n = m'.read addr' n := by
  apply List.map_congr_left
  intro i hi
  exact h i (List.mem_range.mp hi)

/-- Reading what was just written gives it back. -/
theorem read_write (m : Memory) (addr n : Nat) (v : List Byte) (hv : v.length = n) :
    (m.write addr n v).read addr n = v := by
  apply List.ext_getElem (by simp [hv])
  intro i h1 h2
  rw [getElem_read, byteAt_write_in _ _ _ _ _ (by omega), List.getD_eq_getElem]

/-- Reading away from what was written gives what was there. -/
theorem read_write_out (m : Memory) (addr n a k : Nat) (v : List Byte) (h : a + k ≤ addr ∨ addr + n ≤ a) :
    (m.write addr n v).read a k = m.read a k := by
  apply read_congr
  intro i hi
  exact byteAt_write_out _ _ _ _ _ (by omega)

theorem read_append (m : Memory) (a j k : Nat) : m.read a (j + k) = m.read a j ++ m.read (a + j) k := by
  simp [read, List.range_add, Nat.add_assoc, Function.comp_def]

theorem read_take (m : Memory) (a j n : Nat) (h : j ≤ n) : (m.read a n).take j = m.read a j := by
  obtain ⟨k, rfl⟩ := Nat.exists_eq_add_of_le h
  rw [read_append, List.take_left' (by simp)]

theorem read_drop (m : Memory) (a j n : Nat) (h : j ≤ n) : (m.read a n).drop j = m.read (a + j) (n - j) := by
  obtain ⟨k, rfl⟩ := Nat.exists_eq_add_of_le h
  rw [read_append, List.drop_left' (by simp), Nat.add_sub_cancel_left]

/-- Writing a sequence is writing its first part and then the rest. -/
theorem write_add (m : Memory) (addr j k : Nat) (v : List Byte) :
    m.write addr (j + k) v = (m.write addr j v).write (addr + j) k (v.drop j) := by
  induction k with
  | zero => rfl
  | succ k ih =>
    rw [← Nat.add_assoc, write, ih, write]
    simp [Nat.add_assoc, List.getD_eq_getElem?_getD]

/-- Only the first `n` bytes of the sequence matter. -/
theorem write_congr (m : Memory) (addr n : Nat) (v w : List Byte) (h : ∀ i, i < n → v.getD i 0 = w.getD i 0) :
    m.write addr n v = m.write addr n w := by
  induction n with
  | zero => rfl
  | succ n ih => rw [write, write, ih fun i hi => h i (by omega), h n (by omega)]

@[simp] theorem apply_none (m : Memory) : m.apply none = m := rfl
@[simp] theorem apply_some (m : Memory) (st : Store) : m.apply (some st) = m.write st.addr st.len st.data := rfl
@[simp] theorem apply_size (m : Memory) (st : Option Store) : (m.apply st).size = m.size := by cases st <;> simp

/-! ## The canonical form -/

theorem mem_insertCell {a : Nat} {b : Byte} {cs : List Host.Cell} {c : Host.Cell} (h : c ∈ insertCell a b cs) :
    c = (a, b) ∨ c ∈ cs := by
  induction cs with
  | nil => simpa [insertCell] using h
  | cons d ds ih =>
    unfold insertCell at h
    split at h
    · simpa using h
    · split at h
      · rcases List.mem_cons.mp h with h | h
        · exact .inl h
        · exact .inr (List.mem_cons_of_mem _ h)
      · rcases List.mem_cons.mp h with h | h
        · exact .inr (h ▸ List.mem_cons_self)
        · exact (ih h).imp_right (List.mem_cons_of_mem _)

theorem insertCell_rising {a : Nat} {b : Byte} {cs : List Host.Cell}
    (h : cs.Pairwise fun c d => c.1 < d.1) : (insertCell a b cs).Pairwise fun c d => c.1 < d.1 := by
  induction cs with
  | nil => simp [insertCell]
  | cons d ds ih =>
    obtain ⟨hd, hds⟩ := List.pairwise_cons.mp h
    unfold insertCell
    split
    · rename_i hlt
      refine List.pairwise_cons.mpr ⟨fun c hc => ?_, h⟩
      rcases List.mem_cons.mp hc with rfl | hc
      · exact hlt
      · exact lt_trans hlt (hd c hc)
    · split
      · rename_i heq
        exact List.pairwise_cons.mpr ⟨fun c hc => heq ▸ hd c hc, hds⟩
      · rename_i h1 h2
        refine List.pairwise_cons.mpr ⟨fun c hc => ?_, ih hds⟩
        rcases mem_insertCell hc with rfl | hc
        · show d.1 < a
          omega
        · exact hd c hc

/-- Writing a byte that exists keeps the canonical form. -/
theorem writeByte_wf {m : Memory} (h : m.wf) {a : Nat} (ha : a < m.size) (b : Byte) : (m.writeByte a b).wf := by
  refine ⟨insertCell_rising h.1, fun c hc => ?_, h.2.2⟩
  rcases mem_insertCell hc with rfl | hc
  · exact ha
  · exact h.2.1 c hc

/-- `MemWrite` inside MEM keeps the canonical form. -/
theorem write_wf {m : Memory} (h : m.wf) (addr n : Nat) (v : List Byte) (hn : addr + n ≤ m.size) :
    (m.write addr n v).wf := by
  induction n with
  | zero => exact h
  | succ n ih => exact writeByte_wf (ih (by omega)) (by rw [write_size]; omega) _

/-- The `MemWrite` of a command keeps the canonical form where it stays inside MEM. -/
theorem apply_wf {m : Memory} (h : m.wf) (st : Option Store) (hst : ∀ x ∈ st, x.addr + x.len ≤ m.size) :
    (m.apply st).wf := by
  cases st with
  | none => exact h
  | some x => exact write_wf h _ _ _ (hst x rfl)

theorem lookup_none_of_lt {a : Nat} {cs : List Host.Cell} (h : ∀ c ∈ cs, a < c.1) : lookup cs a = none := by
  induction cs with
  | nil => rfl
  | cons c cs ih =>
    have h1 : c.1 ≠ a := by have := h c List.mem_cons_self; omega
    simp [lookup, h1, ih fun d hd => h d (List.mem_cons_of_mem _ hd)]

theorem cells_eq_of_lookup {cs ds : List Host.Cell} (hc : cs.Pairwise fun c d => c.1 < d.1)
    (hd : ds.Pairwise fun c d => c.1 < d.1) (h : ∀ a, lookup cs a = lookup ds a) : cs = ds := by
  induction cs generalizing ds with
  | nil =>
    cases ds with
    | nil => rfl
    | cons d ds => simpa [lookup] using h d.1
  | cons c cs ih =>
    cases ds with
    | nil => simpa [lookup] using h c.1
    | cons d ds =>
      obtain ⟨hc1, hc2⟩ := List.pairwise_cons.mp hc
      obtain ⟨hd1, hd2⟩ := List.pairwise_cons.mp hd
      have hcd : c.1 = d.1 := by
        rcases lt_trichotomy c.1 d.1 with hl | he | hg
        · have hn : lookup (d :: ds) c.1 = none := lookup_none_of_lt fun x hx => by
            rcases List.mem_cons.mp hx with rfl | hx
            · exact hl
            · exact lt_trans hl (hd1 x hx)
          have := h c.1
          rw [hn] at this
          simp [lookup] at this
        · exact he
        · have hn : lookup (c :: cs) d.1 = none := lookup_none_of_lt fun x hx => by
            rcases List.mem_cons.mp hx with rfl | hx
            · exact hg
            · exact lt_trans hg (hc1 x hx)
          have := h d.1
          rw [hn] at this
          simp [lookup] at this
      have h0 := h c.1
      simp only [lookup, hcd, if_true, Option.some.injEq] at h0
      have hrest : ∀ a, lookup cs a = lookup ds a := by
        intro a
        by_cases ha : c.1 = a
        · rw [lookup_none_of_lt fun x hx => ha ▸ hc1 x hx, lookup_none_of_lt fun x hx => by
            rw [← ha, hcd]; exact hd1 x hx]
        · have := h a
          simpa [lookup, ha, hcd ▸ ha] using this
      rw [ih hc2 hd2 hrest, Prod.ext hcd h0]

/-- Two memories of one size in canonical form that list the same bytes are equal. -/
theorem eq_of_lookup {m m' : Memory} (h : m.wf) (h' : m'.wf) (hs : m.size = m'.size)
    (hl : ∀ a, lookup m.cells a = lookup m'.cells a) : m = m' := by
  cases m
  cases m'
  simp only [mk.injEq]
  exact ⟨hs, cells_eq_of_lookup h.1 h'.1 hl⟩

/-- MEM after reset, with nothing listed, is in canonical form. -/
theorem reset_wf : State.reset.mem.wf := by decide

end Sys2Proof.Machine.Memory
end

