-- ==== Sys2Proof/Laws/State.lean ====
section
/-! SUPPORT. One lemma per field per update of the state, true by `rfl`, so that no later proof unfolds a record update. -/

namespace Sys2Proof.Machine

variable (s : State)

/-! ### `done`: R155 -/

@[simp] theorem State.done_status (r : Nat) (st : Option Store) : (s.done r st).status = s.status.afterDone := rfl
@[simp] theorem State.done_cfg (r : Nat) (st : Option Store) : (s.done r st).cfg = s.cfg := rfl
@[simp] theorem State.done_keylen (r : Nat) (st : Option Store) : (s.done r st).keylen = s.keylen := rfl
@[simp] theorem State.done_key (r : Nat) (st : Option Store) : (s.done r st).key = s.key := rfl
@[simp] theorem State.done_iv (r : Nat) (st : Option Store) : (s.done r st).iv = s.iv := rfl
@[simp] theorem State.done_src (r : Nat) (st : Option Store) : (s.done r st).src = s.src := rfl
@[simp] theorem State.done_len (r : Nat) (st : Option Store) : (s.done r st).len = s.len := rfl
@[simp] theorem State.done_dst (r : Nat) (st : Option Store) : (s.done r st).dst = s.dst := rfl
@[simp] theorem State.done_dcap (r : Nat) (st : Option Store) : (s.done r st).dcap = s.dcap := rfl
@[simp] theorem State.done_rlen (r : Nat) (st : Option Store) : (s.done r st).rlen = BitVec.ofNat 32 r := rfl
@[simp] theorem State.done_mem (r : Nat) (st : Option Store) : (s.done r st).mem = s.mem.apply st := rfl
@[simp] theorem State.done_moves (r : Nat) (st : Option Store) : (s.done r st).moves = s.moves := rfl
@[simp] theorem State.done_reply (r : Nat) (st : Option Store) : (s.done r st).reply = s.reply := rfl

/-! ### `raiseErr`: R156 -/

@[simp] theorem State.raiseErr_status (c : ErrCode) : (s.raiseErr c).status = s.status.afterErr c := rfl
@[simp] theorem State.raiseErr_cfg (c : ErrCode) : (s.raiseErr c).cfg = s.cfg := rfl
@[simp] theorem State.raiseErr_keylen (c : ErrCode) : (s.raiseErr c).keylen = s.keylen := rfl
@[simp] theorem State.raiseErr_key (c : ErrCode) : (s.raiseErr c).key = s.key := rfl
@[simp] theorem State.raiseErr_iv (c : ErrCode) : (s.raiseErr c).iv = s.iv := rfl
@[simp] theorem State.raiseErr_src (c : ErrCode) : (s.raiseErr c).src = s.src := rfl
@[simp] theorem State.raiseErr_len (c : ErrCode) : (s.raiseErr c).len = s.len := rfl
@[simp] theorem State.raiseErr_dst (c : ErrCode) : (s.raiseErr c).dst = s.dst := rfl
@[simp] theorem State.raiseErr_dcap (c : ErrCode) : (s.raiseErr c).dcap = s.dcap := rfl
@[simp] theorem State.raiseErr_rlen (c : ErrCode) : (s.raiseErr c).rlen = 0 := rfl
@[simp] theorem State.raiseErr_mem (c : ErrCode) : (s.raiseErr c).mem = s.mem := rfl
@[simp] theorem State.raiseErr_moves (c : ErrCode) : (s.raiseErr c).moves = s.moves := rfl
@[simp] theorem State.raiseErr_reply (c : ErrCode) : (s.raiseErr c).reply = s.reply := rfl

/-! ### `raiseFatal`: R157 -/

@[simp] theorem State.raiseFatal_status (f : Fault) : (s.raiseFatal f).status = s.status.afterFatal f := rfl
@[simp] theorem State.raiseFatal_cfg (f : Fault) : (s.raiseFatal f).cfg = s.cfg := rfl
@[simp] theorem State.raiseFatal_keylen (f : Fault) : (s.raiseFatal f).keylen = s.keylen := rfl
@[simp] theorem State.raiseFatal_key (f : Fault) : (s.raiseFatal f).key = s.key := rfl
@[simp] theorem State.raiseFatal_iv (f : Fault) : (s.raiseFatal f).iv = s.iv := rfl
@[simp] theorem State.raiseFatal_src (f : Fault) : (s.raiseFatal f).src = s.src := rfl
@[simp] theorem State.raiseFatal_len (f : Fault) : (s.raiseFatal f).len = s.len := rfl
@[simp] theorem State.raiseFatal_dst (f : Fault) : (s.raiseFatal f).dst = s.dst := rfl
@[simp] theorem State.raiseFatal_dcap (f : Fault) : (s.raiseFatal f).dcap = s.dcap := rfl
@[simp] theorem State.raiseFatal_rlen (f : Fault) : (s.raiseFatal f).rlen = s.rlen := rfl
@[simp] theorem State.raiseFatal_mem (f : Fault) : (s.raiseFatal f).mem = s.mem := rfl
@[simp] theorem State.raiseFatal_moves (f : Fault) : (s.raiseFatal f).moves = s.moves := rfl
@[simp] theorem State.raiseFatal_reply (f : Fault) : (s.raiseFatal f).reply = s.reply := rfl

/-! ### `resetMove`: R175 -/

@[simp] theorem State.resetMove_status : (s.resetMove).status = ⟨0, 0, false⟩ := rfl
@[simp] theorem State.resetMove_cfg : (s.resetMove).cfg = ⟨1, 1⟩ := rfl
@[simp] theorem State.resetMove_keylen : (s.resetMove).keylen = 0 := rfl
@[simp] theorem State.resetMove_key : (s.resetMove).key = Vector.replicate 8 0 := rfl
@[simp] theorem State.resetMove_iv : (s.resetMove).iv = Vector.replicate 4 0 := rfl
@[simp] theorem State.resetMove_src : (s.resetMove).src = 0 := rfl
@[simp] theorem State.resetMove_len : (s.resetMove).len = 0 := rfl
@[simp] theorem State.resetMove_dst : (s.resetMove).dst = 0 := rfl
@[simp] theorem State.resetMove_dcap : (s.resetMove).dcap = 0 := rfl
@[simp] theorem State.resetMove_rlen : (s.resetMove).rlen = 0 := rfl
@[simp] theorem State.resetMove_mem : (s.resetMove).mem = s.mem := rfl
@[simp] theorem State.resetMove_moves : (s.resetMove).moves = s.moves := rfl
@[simp] theorem State.resetMove_reply : (s.resetMove).reply = s.reply := rfl

/-! ### `takeMove`: the host makes its next move -/

@[simp] theorem State.takeMove_status (rest : List HostMove) : (s.takeMove rest).status = s.status := rfl
@[simp] theorem State.takeMove_cfg (rest : List HostMove) : (s.takeMove rest).cfg = s.cfg := rfl
@[simp] theorem State.takeMove_keylen (rest : List HostMove) : (s.takeMove rest).keylen = s.keylen := rfl
@[simp] theorem State.takeMove_key (rest : List HostMove) : (s.takeMove rest).key = s.key := rfl
@[simp] theorem State.takeMove_iv (rest : List HostMove) : (s.takeMove rest).iv = s.iv := rfl
@[simp] theorem State.takeMove_src (rest : List HostMove) : (s.takeMove rest).src = s.src := rfl
@[simp] theorem State.takeMove_len (rest : List HostMove) : (s.takeMove rest).len = s.len := rfl
@[simp] theorem State.takeMove_dst (rest : List HostMove) : (s.takeMove rest).dst = s.dst := rfl
@[simp] theorem State.takeMove_dcap (rest : List HostMove) : (s.takeMove rest).dcap = s.dcap := rfl
@[simp] theorem State.takeMove_rlen (rest : List HostMove) : (s.takeMove rest).rlen = s.rlen := rfl
@[simp] theorem State.takeMove_mem (rest : List HostMove) : (s.takeMove rest).mem = s.mem := rfl
@[simp] theorem State.takeMove_moves (rest : List HostMove) : (s.takeMove rest).moves = rest := rfl
@[simp] theorem State.takeMove_reply (rest : List HostMove) : (s.takeMove rest).reply = none := rfl

/-! ### `withMove`: the host's next move put in front -/

@[simp] theorem State.withMove_status (m : HostMove) : (s.withMove m).status = s.status := rfl
@[simp] theorem State.withMove_cfg (m : HostMove) : (s.withMove m).cfg = s.cfg := rfl
@[simp] theorem State.withMove_keylen (m : HostMove) : (s.withMove m).keylen = s.keylen := rfl
@[simp] theorem State.withMove_key (m : HostMove) : (s.withMove m).key = s.key := rfl
@[simp] theorem State.withMove_iv (m : HostMove) : (s.withMove m).iv = s.iv := rfl
@[simp] theorem State.withMove_src (m : HostMove) : (s.withMove m).src = s.src := rfl
@[simp] theorem State.withMove_len (m : HostMove) : (s.withMove m).len = s.len := rfl
@[simp] theorem State.withMove_dst (m : HostMove) : (s.withMove m).dst = s.dst := rfl
@[simp] theorem State.withMove_dcap (m : HostMove) : (s.withMove m).dcap = s.dcap := rfl
@[simp] theorem State.withMove_rlen (m : HostMove) : (s.withMove m).rlen = s.rlen := rfl
@[simp] theorem State.withMove_mem (m : HostMove) : (s.withMove m).mem = s.mem := rfl
@[simp] theorem State.withMove_moves (m : HostMove) : (s.withMove m).moves = m :: s.moves := rfl
@[simp] theorem State.withMove_reply (m : HostMove) : (s.withMove m).reply = s.reply := rfl

/-! ### The endings on `STATUS` -/

variable (t : Status)

@[simp] theorem Status.afterDone_err : t.afterDone.err = 0 := rfl
@[simp] theorem Status.afterDone_fcode : t.afterDone.fcode = t.fcode := rfl
@[simp] theorem Status.afterDone_fatal : t.afterDone.fatal = t.fatal := rfl
@[simp] theorem Status.afterErr_err (c : ErrCode) : (t.afterErr c).err = c.code := rfl
@[simp] theorem Status.afterErr_fcode (c : ErrCode) : (t.afterErr c).fcode = t.fcode := rfl
@[simp] theorem Status.afterErr_fatal (c : ErrCode) : (t.afterErr c).fatal = t.fatal := rfl
@[simp] theorem Status.afterFatal_err (f : Fault) : (t.afterFatal f).err = t.err := rfl
@[simp] theorem Status.afterFatal_fcode (f : Fault) : (t.afterFatal f).fcode = f.code := rfl
@[simp] theorem Status.afterFatal_fatal (f : Fault) : (t.afterFatal f).fatal = true := rfl

/-! ### `storeReg`: a host write to a register (R21, R27, R30) -/

variable (r : Reg) (v : Word)

@[simp] theorem storeReg_cmd : storeReg s .cmd v = s := rfl
@[simp] theorem storeReg_status_reg : storeReg s .status v = s := rfl
@[simp] theorem storeReg_cfg_reg : storeReg s .cfg v = { s with cfg := Cfg.ofWord v } := rfl
@[simp] theorem storeReg_keylen_reg : storeReg s .keylen v = { s with keylen := v.extractLsb' 0 8 } := rfl
@[simp] theorem storeReg_key_reg (i : Fin 8) : storeReg s (.key i) v = { s with key := s.key.set i v } := rfl
@[simp] theorem storeReg_iv_reg (i : Fin 4) : storeReg s (.iv i) v = { s with iv := s.iv.set i v } := rfl
@[simp] theorem storeReg_src_reg : storeReg s .src v = { s with src := v } := rfl
@[simp] theorem storeReg_len_reg : storeReg s .len v = { s with len := v } := rfl
@[simp] theorem storeReg_dst_reg : storeReg s .dst v = { s with dst := v } := rfl
@[simp] theorem storeReg_dcap_reg : storeReg s .dcap v = { s with dcap := v } := rfl
@[simp] theorem storeReg_rlen_reg : storeReg s .rlen v = s := rfl
@[simp] theorem storeReg_reserved : storeReg s .reserved v = s := rfl

@[simp] theorem storeReg_status : (storeReg s r v).status = s.status := by cases r <;> rfl
@[simp] theorem storeReg_rlen : (storeReg s r v).rlen = s.rlen := by cases r <;> rfl
@[simp] theorem storeReg_mem : (storeReg s r v).mem = s.mem := by cases r <;> rfl
@[simp] theorem storeReg_moves : (storeReg s r v).moves = s.moves := by cases r <;> rfl
@[simp] theorem storeReg_reply : (storeReg s r v).reply = s.reply := by cases r <;> rfl

/-! ### The buffers are read off the operand registers (R50) -/

@[simp] theorem State.source_addr : s.source.addr = s.src.toNat := rfl
@[simp] theorem State.source_len : s.source.len = s.len.toNat := rfl
@[simp] theorem State.dest_addr : s.dest.addr = s.dst.toNat := rfl
@[simp] theorem State.dest_len : s.dest.len = s.dcap.toNat := rfl

end Sys2Proof.Machine
end

