-- ==== Sys2Proof/Laws/Ops.lean ====
section
/-! SUPPORT. What the shared frame of the commands can do: the check list, the three endings, and the frozen state. -/

namespace Sys2Proof.Machine

/-! ## The check list -/

theorem require_eq_none {ok : Prop} [Decidable ok] {r : Raise} : require ok r = none ↔ ok := by
  unfold require
  split <;> simp_all

theorem require_eq_some {ok : Prop} [Decidable ok] {r q : Raise} : require ok r = some q ↔ q = r ∧ ¬ok := by
  unfold require
  split <;> simp_all [eq_comm]

/-- A check that passes. -/
theorem require_of {ok : Prop} [Decidable ok] {r : Raise} (h : ok) : require ok r = none := if_pos h

/-- A check that raises. -/
theorem require_of_not {ok : Prop} [Decidable ok] {r : Raise} (h : ¬ok) : require ok r = some r := if_neg h

@[simp] theorem firstRaise_nil : firstRaise [] = none := rfl
@[simp] theorem firstRaise_some (r : Raise) (cs : List (Option Raise)) : firstRaise (some r :: cs) = some r := rfl
@[simp] theorem firstRaise_none (cs : List (Option Raise)) : firstRaise (none :: cs) = firstRaise cs := rfl

theorem firstRaise_eq_none {cs : List (Option Raise)} : firstRaise cs = none ↔ ∀ c ∈ cs, c = none := by
  induction cs with
  | nil => simp
  | cons c cs ih => cases c <;> simp [ih]

theorem firstRaise_mem {cs : List (Option Raise)} {r : Raise} (h : firstRaise cs = some r) : some r ∈ cs := by
  induction cs with
  | nil => cases h
  | cons c cs ih =>
    cases c with
    | none => exact List.mem_cons_of_mem _ (ih h)
    | some q => cases h; exact List.mem_cons_self

/-- Two check lists one after the other are checked as one. -/
theorem checked_append (cs ds : List (Option Raise)) (e : Ending) :
    checked (cs ++ ds) e = checked cs (checked ds e) := by
  induction cs with
  | nil => rfl
  | cons c cs ih => cases c <;> simp_all [checked]

@[simp] theorem checked_nil (e : Ending) : checked [] e = e := rfl

@[simp] theorem checked_some (r : Raise) (cs : List (Option Raise)) (e : Ending) :
    checked (some r :: cs) e = .raise r := rfl

@[simp] theorem checked_none (cs : List (Option Raise)) (e : Ending) : checked (none :: cs) e = checked cs e := rfl

/-- A check list none of whose checks raises lets the command go on. -/
theorem checked_of_none {cs : List (Option Raise)} (h : ∀ c ∈ cs, c = none) (e : Ending) : checked cs e = e := by
  rw [checked, firstRaise_eq_none.mpr h]

/-- What a check list can do: raise what one of its checks raises, or let the command go on with no check raising. -/
theorem checked_cases (cs : List (Option Raise)) (e : Ending) :
    (∃ r, some r ∈ cs ∧ checked cs e = .raise r) ∨ ((∀ c ∈ cs, c = none) ∧ checked cs e = e) := by
  cases h : firstRaise cs with
  | none => exact .inr ⟨firstRaise_eq_none.mp h, by rw [checked, h]⟩
  | some r => exact .inl ⟨r, firstRaise_mem h, by rw [checked, h]⟩

/-! ## The endings -/

@[simp] theorem finish_done (s : State) (r : Nat) (st : Option Store) : s.finish (.done r st) = s.done r st := rfl
@[simp] theorem finish_err (s : State) (c : ErrCode) : s.finish (.raise (.err c)) = s.raiseErr c := rfl
@[simp] theorem finish_fatal (s : State) (f : Fault) : s.finish (.raise (.fatal f)) = s.raiseFatal f := rfl

/-- No ending changes anything but `STATUS`, `RLEN` and MEM (R155 to R157). -/
theorem finish_frame (s : State) (e : Ending) :
    s.finish e = { s with status := (s.finish e).status, rlen := (s.finish e).rlen, mem := (s.finish e).mem } := by
  cases e with
  | done r st => rfl
  | raise r => cases r <;> rfl

@[simp] theorem finish_size (s : State) (e : Ending) : (s.finish e).mem.size = s.mem.size := by
  cases e with
  | done r st => simp
  | raise r => cases r <;> rfl

/-! ## The frame of a command -/

/-- In the frozen state a command changes nothing (R26, R158). -/
theorem command_frozen {s : State} (h : s.status.fatal = true) (body : State → Ending) : command body s = .next s := by
  simp [command, h]

/-- With `FATAL = 0` a command has the effect of its ending. -/
theorem command_run {s : State} (h : s.status.fatal = false) (body : State → Ending) :
    command body s = .next (s.finish (body s)) := by
  simp [command, h]

/-- A command always has a next state. -/
theorem command_next (body : State → Ending) (s : State) : ∃ t, command body s = .next t := ⟨_, rfl⟩

end Sys2Proof.Machine
end

