-- ==== Sys2Proof/Laws/Operands.lean ====
section
/-! SUPPORT. What each check asks, and what it raises where it fails; the mode tag; the key and the IV byte by byte. -/

namespace Sys2Proof.Machine

variable {s : State}

/-! ## The checks -/

theorem boundsCheck_eq_none {b : Buffer} : boundsCheck s b = none ↔ (b.addr + b.len ≤ s.mem.size) := require_eq_none

theorem boundsCheck_eq_some {b : Buffer} {r : Raise} : boundsCheck s b = some r ↔
    r = .fatal .bounds ∧ ¬(b.addr + b.len ≤ s.mem.size) :=
  require_eq_some

theorem overlapCheck_eq_none : overlapCheck s = none ↔ (s.overlapOK) := require_eq_none

theorem overlapCheck_eq_some {r : Raise} : overlapCheck s = some r ↔ r = .fatal .overlap ∧ ¬(s.overlapOK) :=
  require_eq_some

theorem schemeCheck_eq_none : schemeCheck s = none ↔ (s.cfg.pads.toNat = 0 ∨ s.cfg.pads.toNat = 1) := require_eq_none

theorem schemeCheck_eq_some {r : Raise} : schemeCheck s = some r ↔
    r = .err .unknownPadding ∧ ¬(s.cfg.pads.toNat = 0 ∨ s.cfg.pads.toNat = 1) :=
  require_eq_some

theorem keyCheck_eq_none : keyCheck s = none ↔ (KeyLen s.keylen.toNat) := require_eq_none

theorem keyCheck_eq_some {r : Raise} : keyCheck s = some r ↔ r = .err .keySize ∧ ¬(KeyLen s.keylen.toNat) :=
  require_eq_some

theorem srcLenCheck_eq_none : srcLenCheck s = none ↔ (s.len.toNat % 16 = 0) := require_eq_none

theorem srcLenCheck_eq_some {r : Raise} : srcLenCheck s = some r ↔ r = .fatal .srcLen ∧ ¬(s.len.toNat % 16 = 0) :=
  require_eq_some

theorem dstCapCheck_eq_none {n : Nat} : dstCapCheck s n = none ↔ (n ≤ s.dcap.toNat) := require_eq_none

theorem dstCapCheck_eq_some {n : Nat} {r : Raise} : dstCapCheck s n = some r ↔
    r = .fatal .dstCap ∧ ¬(n ≤ s.dcap.toNat) :=
  require_eq_some

theorem lengthCheck_eq_none : lengthCheck s = none ↔ (s.len.toNat % 16 = 0) := require_eq_none

theorem lengthCheck_eq_some {r : Raise} : lengthCheck s = some r ↔ r = .err .blockLength ∧ ¬(s.len.toNat % 16 = 0) :=
  require_eq_some

/-! ## The mode tag -/

theorem modeOf_eq_none {tag : Byte} : modeOf tag = none ↔ 5 ≤ tag.toNat := by
  unfold modeOf
  constructor
  · intro h
    by_contra hc
    have : tag.toNat = 0 ∨ tag.toNat = 1 ∨ tag.toNat = 2 ∨ tag.toNat = 3 ∨ tag.toNat = 4 := by omega
    rcases this with e | e | e | e | e <;> simp [e] at h
  · intro h
    split <;> first | omega | rfl

/-- A recognised mode is one of the five tags of R28. -/
theorem modeOf_cases {tag : Byte} (h : tag.toNat ≤ 4) :
    (tag.toNat = 0 ∧ modeOf tag = some .ecb) ∨ (tag.toNat = 1 ∧ modeOf tag = some (.modex .cbc)) ∨
    (tag.toNat = 2 ∧ modeOf tag = some (.modex .ctr)) ∨ (tag.toNat = 3 ∧ modeOf tag = some (.modex .ofb)) ∨
    (tag.toNat = 4 ∧ modeOf tag = some (.modex .cfb)) := by
  have : tag.toNat = 0 ∨ tag.toNat = 1 ∨ tag.toNat = 2 ∨ tag.toNat = 3 ∨ tag.toNat = 4 := by omega
  rcases this with e | e | e | e | e <;> simp [modeOf, e]

/-! ## The key and the IV -/

@[simp] theorem keyBytes_length (s : State) : s.keyBytes.length = s.keylen.toNat := by simp [State.keyBytes]

/-- A byte of a register bank as a number (R31, R33). -/
theorem bankByte_toNat (bank : List Word) (j : Nat) :
    (bankByte bank j).toNat = (bank.getD (j / 4) 0).toNat / 2 ^ (8 * (j % 4)) % 256 := by
  simp [bankByte, Nat.shiftRight_eq_div_pow]

end Sys2Proof.Machine
end

