-- ==== Sys2Proof/Laws/Commands.lean ====
section
/-! SUPPORT. Every command's ending as one chain of its checks in the order of R159, and what `exec` can do with it. -/

namespace Sys2Proof.Machine

/-- The source buffer is in bounds (R53). -/
abbrev State.sourceFits (s : State) : Prop := s.src.toNat + s.len.toNat ≤ s.mem.size

/-- The destination buffer is in bounds (R53). -/
abbrev State.destFits (s : State) : Prop := s.dst.toNat + s.dcap.toNat ≤ s.mem.size

/-- The padding tag is recognised (R29). -/
abbrev State.schemeOk (s : State) : Prop := s.cfg.pads.toNat = 0 ∨ s.cfg.pads.toNat = 1

variable (s : State)

/-! ## The endings -/

theorem padEnding_eq : padEnding s =
    if ¬s.sourceFits then .raise (.fatal .bounds)
    else if ¬s.destFits then .raise (.fatal .bounds)
    else if ¬s.overlapOK then .raise (.fatal .overlap)
    else if ¬s.schemeOk then .raise (.err .unknownPadding)
    else if ¬s.len.toNat + padCount s.len.toNat ≤ s.dcap.toNat then .raise (.fatal .dstCap)
    else .done (s.len.toNat + padCount s.len.toNat)
      (some ⟨s.dst.toNat, s.len.toNat + padCount s.len.toNat, padBytes (s.mem.read s.src.toNat s.len.toNat)⟩) := by
  unfold padEnding geometryCheck2 boundsCheck overlapCheck schemeCheck dstCapCheck require
  simp only [ite_not]
  repeat' split
  all_goals first | rfl | contradiction

theorem unpadEnding_eq : unpadEnding s =
    if ¬s.sourceFits then .raise (.fatal .bounds)
    else if ¬s.schemeOk then .raise (.err .unknownPadding)
    else if s.len.toNat = 0 then .done 0 none
    else if s.len.toNat ≤ (s.mem.byteAt (s.src.toNat + s.len.toNat - 1)).toNat then .raise (.err .blockUnpadding)
    else .done (s.len.toNat - (s.mem.byteAt (s.src.toNat + s.len.toNat - 1)).toNat) none := by
  unfold unpadEnding geometryCheck1 boundsCheck schemeCheck require unpadResult
  simp only [ite_not]
  repeat' split
  all_goals first | rfl | contradiction

/-- The chain `ECBENC` and `ECBDEC` share. -/
theorem adapter_eq (f : List Byte → List Byte) : checked (adapterChecks s) (transformEnding f s) =
    if ¬s.sourceFits then .raise (.fatal .bounds)
    else if ¬s.destFits then .raise (.fatal .bounds)
    else if ¬s.overlapOK then .raise (.fatal .overlap)
    else if ¬KeyLen s.keylen.toNat then .raise (.err .keySize)
    else if ¬s.len.toNat % 16 = 0 then .raise (.fatal .srcLen)
    else if ¬s.len.toNat ≤ s.dcap.toNat then .raise (.fatal .dstCap)
    else .done s.len.toNat (some ⟨s.dst.toNat, s.len.toNat, f (s.mem.read s.src.toNat s.len.toNat)⟩) := by
  unfold adapterChecks adapterCheck geometryCheck2 boundsCheck overlapCheck keyCheck srcLenCheck dstCapCheck require
  simp only [ite_not]
  repeat' split
  all_goals first | rfl | contradiction

/-- The chain `XENC` and `XDEC` share. -/
theorem dispatch_eq (f : State → Mode → List Byte → List Byte) : dispatchEnding f s =
    if ¬s.sourceFits then .raise (.fatal .bounds)
    else if ¬s.destFits then .raise (.fatal .bounds)
    else if ¬s.overlapOK then .raise (.fatal .overlap)
    else if ¬KeyLen s.keylen.toNat then .raise (.err .keySize)
    else if ¬s.len.toNat % 16 = 0 then .raise (.err .blockLength)
    else match modeOf s.cfg.mode with
      | none => .raise (.err .unknownMode)
      | some m =>
        if ¬s.len.toNat ≤ s.dcap.toNat then .raise (.fatal .dstCap)
        else .done s.len.toNat (some ⟨s.dst.toNat, s.len.toNat, f s m (s.mem.read s.src.toNat s.len.toNat)⟩) := by
  unfold dispatchEnding geometryCheck2 boundsCheck overlapCheck keyCheck lengthCheck dstCapCheck require
  cases modeOf s.cfg.mode <;> simp only [ite_not] <;> repeat' split
  all_goals first | rfl | contradiction

/-! ## `exec` -/

/-- The ending of each command. -/
def endingOf : Instr → State → Ending
  | .pad => padEnding
  | .unpad => unpadEnding
  | .ecbenc => ecbencEnding
  | .ecbdec => ecbdecEnding
  | .xenc => xencEnding
  | .xdec => xdecEnding

theorem exec_eq (i : Instr) : exec i s = command (endingOf i) s := by cases i <;> rfl

variable {s}

/-- With `FATAL = 0` a command has the effect of its ending; `exec` never stops. -/
theorem exec_run (i : Instr) (h : s.status.fatal = false) : exec i s = .next (s.finish (endingOf i s)) := by
  rw [exec_eq, command_run h]

theorem exec_frozen (i : Instr) (h : s.status.fatal = true) : exec i s = .next s := by
  rw [exec_eq, command_frozen h]

/-- What a run of a command with `FATAL = 0` can be: its next state is what its ending leaves. -/
theorem eq_finish_of_exec {i : Instr} {t : State} (h : s.status.fatal = false) (ht : exec i s = .next t) :
    t = s.finish (endingOf i s) := by
  rw [exec_run i h] at ht
  exact (Host.Outcome.next.inj ht).symm

/-- Everything a command's ending can be (R154): one of the raises of its column, or `Done` with what that requires and
gives: the buffers fit, and the store, if there is one, is of `RLEN` bytes at `DST` within the destination buffer. -/
theorem endingOf_cases (i : Instr) (s : State) :
    (∃ r, endingOf i s = .raise r) ∨
    (i = .unpad ∧ s.sourceFits ∧ s.schemeOk ∧ ∃ n, n ≤ s.len.toNat ∧ endingOf i s = .done n none) ∨
    (i ≠ .unpad ∧ s.sourceFits ∧ s.destFits ∧ s.overlapOK ∧ ∃ n data, n ≤ s.dcap.toNat ∧
      endingOf i s = .done n (some ⟨s.dst.toNat, n, data⟩)) := by
  have htransform : ∀ (j : Instr) (f : List Byte → List Byte), j ≠ .unpad →
      endingOf j s = checked (adapterChecks s) (transformEnding f s) →
      (∃ r, endingOf j s = .raise r) ∨ (j ≠ .unpad ∧ s.sourceFits ∧ s.destFits ∧ s.overlapOK ∧
        ∃ n data, n ≤ s.dcap.toNat ∧ endingOf j s = .done n (some ⟨s.dst.toNat, n, data⟩)) := by
    intro j f hj he
    rw [he, adapter_eq]
    repeat' split
    all_goals first | exact .inl ⟨_, rfl⟩ | skip
    refine .inr ⟨hj, ?_, ?_, ?_, _, _, ?_, rfl⟩ <;> exact not_not.mp (by assumption)
  have hdispatch : ∀ (j : Instr) (f : State → Mode → List Byte → List Byte), j ≠ .unpad →
      endingOf j s = dispatchEnding f s →
      (∃ r, endingOf j s = .raise r) ∨ (j ≠ .unpad ∧ s.sourceFits ∧ s.destFits ∧ s.overlapOK ∧
        ∃ n data, n ≤ s.dcap.toNat ∧ endingOf j s = .done n (some ⟨s.dst.toNat, n, data⟩)) := by
    intro j f hj he
    rw [he, dispatch_eq]
    repeat' split
    all_goals first | exact .inl ⟨_, rfl⟩ | skip
    refine .inr ⟨hj, ?_, ?_, ?_, _, _, ?_, rfl⟩ <;> exact not_not.mp (by assumption)
  cases i with
  | pad =>
    rw [show endingOf .pad s = padEnding s from rfl, padEnding_eq]
    repeat' split
    all_goals first | exact .inl ⟨_, rfl⟩ | skip
    refine .inr (.inr ⟨by decide, ?_, ?_, ?_, _, _, ?_, rfl⟩) <;> exact not_not.mp (by assumption)
  | unpad =>
    rw [show endingOf .unpad s = unpadEnding s from rfl, unpadEnding_eq]
    repeat' split
    all_goals first | exact .inl ⟨_, rfl⟩ | skip
    · refine .inr (.inl ⟨rfl, ?_, ?_, _, by omega, rfl⟩) <;> exact not_not.mp (by assumption)
    · refine .inr (.inl ⟨rfl, ?_, ?_, _, by omega, rfl⟩) <;> exact not_not.mp (by assumption)
  | ecbenc => exact (htransform .ecbenc _ (by decide) rfl).imp_right .inr
  | ecbdec => exact (htransform .ecbdec _ (by decide) rfl).imp_right .inr
  | xenc => exact (hdispatch .xenc _ (by decide) rfl).imp_right .inr
  | xdec => exact (hdispatch .xdec _ (by decide) rfl).imp_right .inr

end Sys2Proof.Machine
end

