-- ==== Sys2Proof/Laws/Decode.lean ====
section
/-! SUPPORT. The command word as its three fields, and the opcode table. -/

namespace Sys2Proof

/-- A command word is its fields side by side (R71). -/
theorem toNat_fields (w : Word) : w.toNat = 256 * (zeroField w).toNat + 16 * (unitField w).toNat + (fnField w).toNat := by
  have := w.isLt
  simp only [zeroField, unitField, fnField, BitVec.extractLsb'_toNat, Nat.shiftRight_eq_div_pow]
  omega

/-- No word is selected by two rows of the opcode table. -/
theorem opcodeTable_disjoint : opcodeTable.Pairwise fun r q => r.pattern ≠ q.pattern := by decide

/-- Every row of the opcode table decodes to its command, and is the word the encoder gives. -/
theorem opcodeTable_decodes : ∀ r ∈ opcodeTable, decode r.pattern = .ok r.instr ∧ encode r.instr = r.pattern := by
  decide

/-- Every command has a row in the opcode table. -/
theorem opcodeTable_complete (i : Instr) : ∃ r ∈ opcodeTable, r.instr = i := by cases i <;> decide

end Sys2Proof
end

