-- ==== Sys2Proof/Laws/Ecb.lean ====
section
/-! SUPPORT. The ECB transform stride by stride, and the datapath that computes it one stride at a time. -/

namespace Sys2Proof.Machine

variable (f g : Block → Block)

/-! ## Blocks and strides -/

/-- A block written out and read back is the block. -/
@[simp] theorem blockOf_toList (b : Block) : blockOf b.toList = b := by
  apply Vector.ext
  intro i hi
  simp [blockOf]

/-- A stride of 16 bytes read as a block and written out is the stride. -/
theorem toList_blockOf (s : List Byte) (h : s.length = 16) : (blockOf s).toList = s := by
  apply List.ext_getElem (by simp [h])
  intro i h1 h2
  simp [blockOf, h2]

@[simp] theorem strides_length (n : Nat) (s : List Byte) : (strides f n s).length = 16 * n := by
  induction n generalizing s with
  | zero => rfl
  | succ n ih => simp [strides, ih]; omega

@[simp] theorem ecb_length (s : List Byte) (h : s.length % 16 = 0) : (ecb f s).length = s.length := by
  rw [ecb, strides_length]
  omega

/-- Output stride `i` is the function on input stride `i` (R110). -/
theorem strides_stride (n i : Nat) (s : List Byte) (h : i < n) :
    ((strides f n s).drop (16 * i)).take 16 = (f (blockOf ((s.drop (16 * i)).take 16))).toList := by
  induction n generalizing s i with
  | zero => omega
  | succ n ih =>
    cases i with
    | zero => simp [strides]
    | succ i =>
      have h1 : 16 * (i + 1) = 16 + 16 * i := by omega
      have := ih i (s.drop 16) (by omega)
      rw [strides, h1, ← List.drop_drop, List.drop_left' (by simp), this, List.drop_drop]

theorem ecb_stride (s : List Byte) (i : Nat) (h : i < s.length / 16) :
    ((ecb f s).drop (16 * i)).take 16 = (f (blockOf ((s.drop (16 * i)).take 16))).toList :=
  strides_stride f _ _ _ h

/-- Byte `k` of output stride `i`. -/
theorem ecb_getD (s : List Byte) (i : Nat) (k : Fin 16) (h : i < s.length / 16) :
    (ecb f s).getD (16 * i + k.val) 0 = (f (blockOf ((s.drop (16 * i)).take 16)))[k] := by
  have hk := k.isLt
  have h1 := congrArg (fun l => List.getD l k.val 0) (ecb_stride f s i h)
  simpa [List.getD_eq_getElem?_getD, hk] using h1

/-- A function on blocks that undoes another undoes it stride by stride. -/
theorem strides_strides (h : ∀ b, g (f b) = b) (n : Nat) (s : List Byte) (hs : s.length = 16 * n) :
    strides g n (strides f n s) = s := by
  induction n generalizing s with
  | zero => exact (List.eq_nil_of_length_eq_zero (by omega)).symm
  | succ n ih =>
    rw [strides, strides, List.take_left' (by simp), List.drop_left' (by simp), blockOf_toList, h,
      toList_blockOf _ (by simp; omega), ih _ (by simp; omega), List.take_append_drop]

theorem ecb_ecb (h : ∀ b, g (f b) = b) (s : List Byte) (hs : s.length % 16 = 0) : ecb g (ecb f s) = s := by
  unfold ecb
  rw [strides_length, show 16 * (s.length / 16) / 16 = s.length / 16 by omega]
  exact strides_strides f g h _ s (by omega)

/-! ## The datapath -/

@[simp] theorem Datapath.load_mem (d : Datapath) (src i : Nat) : (d.load src i).mem = d.mem := rfl
@[simp] theorem Datapath.load_sblk (d : Datapath) (src i : Nat) :
    (d.load src i).sblk = blockOf (d.mem.read (src + 16 * i) 16) := rfl
@[simp] theorem Datapath.transform_mem (d : Datapath) : (d.transform f).mem = d.mem := rfl
@[simp] theorem Datapath.transform_dblk (d : Datapath) : (d.transform f).dblk = f d.sblk := rfl
@[simp] theorem Datapath.store_mem (d : Datapath) (dst i : Nat) :
    (d.store dst i).mem = d.mem.write (dst + 16 * i) 16 d.dblk.toList := rfl

/-- One stride of the datapath: what was in the source there is transformed to the destination. -/
theorem Datapath.run_succ_mem (src dst i : Nat) (d : Datapath) :
    (Datapath.run f src dst (i + 1) d).mem =
      (Datapath.run f src dst i d).mem.write (dst + 16 * i) 16
        (f (blockOf ((Datapath.run f src dst i d).mem.read (src + 16 * i) 16))).toList := rfl

end Sys2Proof.Machine
end

