-- ==== Sys2Proof/Laws/HostPort.lean ====
section
/-! SUPPORT. One step, move by move: what each move of the host can do, and where it is refused. -/

namespace Sys2Proof.Machine

variable {s : State}

/-! ## The register map -/

/-- The host can name an offset exactly when it is a multiple of 4 in 0x00 to 0xFC (R21). -/
theorem regAt_isSome {off : Nat} : (regAt off).isSome ↔ off % 4 = 0 ∧ off ≤ 0xFC := by
  unfold regAt
  split <;> simp_all

theorem regAt_eq_none {off : Nat} : regAt off = none ↔ ¬(off % 4 = 0 ∧ off ≤ 0xFC) := by
  unfold regAt
  split <;> simp_all

theorem regAt_of {off : Nat} (h : off % 4 = 0 ∧ off ≤ 0xFC) : regAt off = some (slotReg (off / 4)) := if_pos h

/-- Every register is where its offset says it is. -/
theorem regAt_offset (r : Reg) : regAt r.offset = some r := by
  cases r with
  | key i => revert i; decide
  | iv i => revert i; decide
  | _ => rfl

/-- The offset of a register that the host can name. -/
theorem offset_of_regAt {off : Nat} {r : Reg} (h : regAt off = some r) (hr : r ≠ .reserved) : r.offset = off := by
  unfold regAt at h
  split at h
  · rename_i ho
    obtain ⟨k, rfl⟩ : ∃ k, off = 4 * k := ⟨off / 4, by omega⟩
    have hk : k < 64 := by omega
    rw [Nat.mul_div_cancel_left _ (by omega : 0 < 4)] at h
    have : ∀ k : Fin 64, slotReg k.val = .reserved ∨ (slotReg k.val).offset = 4 * k.val := by decide
    rcases this ⟨k, hk⟩ with h1 | h1
    · exact absurd (Option.some.inj h ▸ h1) hr
    · rw [← Option.some.inj h]
      exact h1
  · cases h

/-! ## One step -/

theorem step_idle (h : s.moves = []) : step s = .next s := by simp [step, hostStep, h]

theorem step_move {m : HostMove} {rest : List HostMove} (h : s.moves = m :: rest) :
    step s = hostMove m (s.takeMove rest) := by simp [step, hostStep, h]

/-- What a step with a next state did: nothing, or the host's next move. -/
theorem step_cases {t : State} (h : step s = .next t) :
    (s.moves = [] ∧ t = s) ∨ ∃ m rest, s.moves = m :: rest ∧ hostMove m (s.takeMove rest) = .next t := by
  cases hm : s.moves with
  | nil =>
    rw [step_idle hm] at h
    exact .inl ⟨rfl, (Host.Outcome.next.inj h).symm⟩
  | cons m rest => exact .inr ⟨m, rest, rfl, step_move hm ▸ h⟩

/-! ## The moves -/

theorem cmdWrite_ok {w : Word} {i : Instr} (h : decode w = .ok i) : cmdWrite w s = exec i s := by simp [cmdWrite, h]

theorem cmdWrite_illegal {w : Word} {e : IllegalWord} (h : decode w = .error e) :
    cmdWrite w s = illegalCommand s := by simp [cmdWrite, h]

theorem hostRegWrite_cmd (v : Word) : hostRegWrite 0 v s = cmdWrite v s := rfl

theorem hostRegWrite_reg {off : Nat} {r : Reg} (v : Word) (h : regAt off = some r) (hr : r ≠ .cmd) :
    hostRegWrite off v s = .next (if s.status.fatal then s else storeReg s r v) := by
  cases r <;> simp_all [hostRegWrite]

/-- A write to `CMD` runs a command or an illegal word, in the frame of a command. -/
theorem cmdWrite_eq (w : Word) (s : State) : ∃ body, cmdWrite w s = command body s := by
  unfold cmdWrite
  split
  · exact ⟨_, exec_eq s _⟩
  · exact ⟨_, rfl⟩

/-- What `HostRegWrite` can do with a next state: issue a command word at `CMD`, or store in another register. -/
theorem hostRegWrite_cases {off : Nat} {v : Word} {t : State} (h : hostRegWrite off v s = .next t) :
    (off = 0 ∧ cmdWrite v s = .next t) ∨
    ∃ r, regAt off = some r ∧ r ≠ .cmd ∧ t = if s.status.fatal then s else storeReg s r v := by
  cases hr : regAt off with
  | none => simp [hostRegWrite, hr] at h
  | some r =>
    by_cases hc : r = .cmd
    · subst hc
      have : off = 0 := (offset_of_regAt hr (by decide)).symm
      subst this
      exact .inl ⟨rfl, hostRegWrite_cmd v ▸ h⟩
    · rw [hostRegWrite_reg v hr hc] at h
      exact .inr ⟨r, rfl, hc, (Host.Outcome.next.inj h).symm⟩

theorem memAccessOk_iff {m : Memory} {addr n : Nat} : memAccessOk m addr n = true ↔ 1 ≤ n ∧ addr + n ≤ m.size := by
  simp [memAccessOk, Memory.inBounds]

/-- A register read the host has answers the register and changes nothing of the block (R21). -/
theorem hostRegRead_ok (s : State) {off : Nat} {r : Reg} (h : regAt off = some r) :
    hostRegRead off s = .next { s with reply := some (.word (readReg s r)) } := by simp [hostRegRead, h]

/-- A MEM read the host has answers the bytes and changes nothing of the block (R52). -/
theorem hostMemRead_ok (s : State) {addr n : Nat} (h : 1 ≤ n ∧ addr + n ≤ s.mem.size) :
    hostMemRead addr n s = .next { s with reply := some (.bytes (s.mem.read addr n)) } :=
  if_pos (memAccessOk_iff.mpr h)

/-- A MEM write the host has sets the bytes, or changes nothing in the frozen state (R52, R158). -/
theorem hostMemWrite_ok (s : State) {addr : Nat} {bytes : List Byte}
    (h : 1 ≤ bytes.length ∧ addr + bytes.length ≤ s.mem.size) :
    hostMemWrite addr bytes s =
      .next (if s.status.fatal then s else { s with mem := s.mem.write addr bytes.length bytes }) :=
  if_pos (memAccessOk_iff.mpr h)

end Sys2Proof.Machine
end

