-- ==== Sys2Proof/Laws/Registers.lean ====
section
/-! SUPPORT. The register words as numbers and field by field, and what a read answers after a write. -/

namespace Sys2Proof.Machine

/-! ## The words -/

/-- `CFG` as a number (R27). -/
theorem Cfg.toWord_toNat (c : Cfg) : c.toWord.toNat = c.mode.toNat + 2 ^ 8 * c.pads.toNat := by
  have h1 := c.mode.isLt
  have h2 := c.pads.isLt
  simp only [Cfg.toWord, BitVec.toNat_append]
  rw [← Nat.shiftLeft_add_eq_or_of_lt h1]
  simp [Nat.shiftLeft_eq]
  omega

/-- What a write to `CFG` leaves in it, as a number: bits 15:0 of the value written (R27). -/
theorem Cfg.toWord_ofWord_toNat (v : Word) : (Cfg.ofWord v).toWord.toNat = v.toNat % 2 ^ 16 := by
  have := v.isLt
  rw [Cfg.toWord_toNat]
  simp only [Cfg.ofWord, BitVec.extractLsb'_toNat, Nat.shiftRight_eq_div_pow]
  omega

/-- `STATUS` as a number (R23). -/
theorem Status.toWord_toNat (t : Status) :
    t.toWord.toNat = t.err.toNat + 2 ^ 8 * t.fcode.toNat + (if t.fatal then 2 ^ 31 else 0) := by
  have h1 := t.err.isLt
  have h2 := t.fcode.isLt
  simp only [Status.toWord, BitVec.toNat_append]
  rw [← Nat.shiftLeft_add_eq_or_of_lt h1, ← Nat.shiftLeft_add_eq_or_of_lt h2, ← Nat.shiftLeft_add_eq_or_of_lt (by simp)]
  cases t.fatal <;> simp [Nat.shiftLeft_eq] <;> omega

/-- Bit 31 of `STATUS` is `FATAL` (R23). -/
theorem Status.toWord_fatal (t : Status) : t.toWord.getLsbD 31 = t.fatal := by
  have h1 := t.toWord_toNat
  have h2 := t.err.isLt
  have h3 := t.fcode.isLt
  rw [BitVec.getLsbD, Nat.testBit_eq_decide_div_mod_eq, h1]
  cases t.fatal <;> simp <;> omega

/-- Bits 7:0 of `STATUS` are `ERR` (R23). -/
theorem Status.toWord_err (t : Status) : t.toWord.extractLsb' 0 8 = t.err := by
  apply BitVec.eq_of_toNat_eq
  have h1 := t.toWord_toNat
  have h2 := t.err.isLt
  have h3 := t.fcode.isLt
  rw [BitVec.extractLsb'_toNat, h1]
  cases t.fatal <;> simp <;> omega

/-- `KEYLEN` as a number (R30). -/
theorem readReg_keylen_toNat (s : State) : (readReg s .keylen).toNat = s.keylen.toNat :=
  (BitVec.toNat_append 0#24 s.keylen).trans (by simp)

/-- Every offset the host can name is four times a slot below 64 (R21). -/
theorem offset_eq_slot {off : Nat} (h : off % 4 = 0 ∧ off ≤ 0xFC) : ∃ k, off = 4 * k ∧ k < 64 :=
  ⟨off / 4, by omega, by omega⟩

/-- The slots of the reserved registers (R20, R39). -/
theorem slotReg_reserved {k : Nat} (h : 21 ≤ k) (h64 : k < 64) : slotReg k = .reserved := by
  have : ∀ k : Fin 64, 21 ≤ k.val → slotReg k.val = .reserved := by decide
  exact this ⟨k, h64⟩ h

/-! ## A read after a write -/

/-- What a register reads as after the host has written `v` to it, where the write is stored (R21, R27, R30). -/
def writtenNat : Reg → Word → Option Nat
  | .cfg, v => some (v.toNat % 2 ^ 16)
  | .keylen, v => some (v.toNat % 2 ^ 8)
  | .key _, v => some v.toNat
  | .iv _, v => some v.toNat
  | .src, v => some v.toNat
  | .len, v => some v.toNat
  | .dst, v => some v.toNat
  | .dcap, v => some v.toNat
  | .cmd, _ => none
  | .status, _ => none
  | .rlen, _ => none
  | .reserved, _ => none

/-- A write to a register changes what that register reads as, if it is read-write, and no other register. -/
theorem readReg_storeReg (s : State) (r q : Reg) (v : Word) :
    (readReg (storeReg s r v) q).toNat =
      if q = r then (writtenNat r v).getD (readReg s r).toNat else (readReg s q).toNat := by
  cases r with
  | key i =>
    cases q with
    | key j =>
      by_cases h : i = j
      · subst h; simp [readReg, writtenNat]
      · have h' : ¬ j = i := fun e => h e.symm
        simp [readReg, h', Fin.val_inj, h]
    | _ => rfl
  | iv i =>
    cases q with
    | iv j =>
      by_cases h : i = j
      · subst h; simp [readReg, writtenNat]
      · have h' : ¬ j = i := fun e => h e.symm
        simp [readReg, h', Fin.val_inj, h]
    | _ => rfl
  | cfg =>
    cases q
    case cfg => simpa [readReg, writtenNat] using Cfg.toWord_ofWord_toNat v
    all_goals rfl
  | keylen =>
    cases q
    case keylen => exact (readReg_keylen_toNat _).trans (by simp [writtenNat])
    all_goals rfl
  | _ => cases q <;> simp [readReg, writtenNat]

end Sys2Proof.Machine
end

