-- ==== Sys2Proof/Laws/Facade.lean ====
section
/-! SUPPORT. The host sequences move by move: operand writes, the command, and what the host reads after it. -/

namespace Sys2Proof.Machine

variable {s t : State}

/-! ## Running moves -/

theorem runMoves_cons {m : HostMove} {ms : List HostMove} (h : hostMove m s = .next t) :
    runMoves (m :: ms) s = runMoves ms t := by simp [runMoves, h]

/-- With `FATAL = 0` an operand write stores its value (R140: no operand write has a side effect). -/
theorem runMoves_wr (hf : s.status.fatal = false) (r : Reg) (v : Word) (hr : r ≠ .cmd) (ms : List HostMove) :
    runMoves (wr r v :: ms) s = runMoves ms (storeReg s r v) :=
  runMoves_cons (by rw [wr, hostMove, hostRegWrite_reg v (regAt_offset r) hr, if_neg (by rw [hf]; decide)])

/-- `CMD <mnemonic>` executes the command (R75). -/
theorem hostMove_cmd (s : State) (i : Instr) : hostMove (cmd i) s = exec i s := by
  have : decode (encode i) = .ok i := by cases i <;> decide
  rw [cmd, cmdMove, hostMove, hostRegWrite_cmd, cmdWrite_ok this]

theorem runMoves_cmd (s : State) (i : Instr) : runMoves [cmd i] s = exec i s := by
  unfold runMoves
  rw [hostMove_cmd]
  cases exec i s <;> rfl

/-- The four operand writes and a command. -/
theorem runMoves_operands (hf : s.status.fatal = false) (src len dst cap : Word) (i : Instr) :
    runMoves [wr .src src, wr .len len, wr .dst dst, wr .dcap cap, cmd i] s =
      exec i { s with src := src, len := len, dst := dst, dcap := cap } := by
  rw [runMoves_wr hf _ _ (by decide), runMoves_wr (by simpa using hf) _ _ (by decide),
    runMoves_wr (by simpa using hf) _ _ (by decide), runMoves_wr (by simpa using hf) _ _ (by decide), runMoves_cmd]
  rfl

/-- The two source writes and a command. -/
theorem runMoves_source (hf : s.status.fatal = false) (src len : Word) (i : Instr) :
    runMoves [wr .src src, wr .len len, cmd i] s = exec i { s with src := src, len := len } := by
  rw [runMoves_wr hf _ _ (by decide), runMoves_wr (by simpa using hf) _ _ (by decide), runMoves_cmd]
  rfl

/-! ## What the host reads after a command -/

/-- The three ways a sequence goes on from the `STATUS` it reads (R141, R142). -/
theorem afterCommand_next {ms : List HostMove} (h : runMoves ms s = .next t) (rest : Word → State → FacadeResult) :
    afterCommand ms s rest =
      if t.status.fatal then ⟨.dead, t⟩
      else if t.status.err ≠ 0 then ⟨.fail t.status.err, t⟩ else rest t.rlen t := by
  simp only [afterCommand, h, readReg, Status.toWord_fatal, Status.toWord_err]

theorem afterCommand_done {ms : List HostMove} (h : runMoves ms s = .next t) (hf : t.status.fatal = false)
    (he : t.status.err = 0) (rest : Word → State → FacadeResult) : afterCommand ms s rest = rest t.rlen t := by
  rw [afterCommand_next h, hf, he]
  rfl

theorem afterCommand_err {ms : List HostMove} {c : Byte} (h : runMoves ms s = .next t) (hf : t.status.fatal = false)
    (he : t.status.err = c) (h0 : c ≠ 0) (rest : Word → State → FacadeResult) :
    afterCommand ms s rest = ⟨.fail c, t⟩ := by
  rw [afterCommand_next h, hf, he, if_pos h0]
  rfl

/-! ## Packing the key and the IV -/

/-- Four bytes side by side as a number. -/
theorem toNat_append_bytes (a b c d : Byte) :
    (a ++ b ++ c ++ d : Word).toNat = 2 ^ 24 * a.toNat + 2 ^ 16 * b.toNat + 2 ^ 8 * c.toNat + d.toNat := by
  have h1 := b.isLt
  have h2 := c.isLt
  have h3 := d.isLt
  simp only [BitVec.toNat_append]
  rw [← Nat.shiftLeft_add_eq_or_of_lt h1, ← Nat.shiftLeft_add_eq_or_of_lt h2, ← Nat.shiftLeft_add_eq_or_of_lt h3]
  simp only [Nat.shiftLeft_eq]
  omega

/-- Byte `k` of a packed word is byte `4 i + k` of the sequence (R31). -/
theorem packWord_byte (bytes : List Byte) (i k : Nat) (hk : k < 4) :
    (packWord bytes i).extractLsb' (8 * k) 8 = bytes.getD (4 * i + k) 0 := by
  apply BitVec.eq_of_toNat_eq
  have h0 := (bytes.getD (4 * i) 0).isLt
  have h1 := (bytes.getD (4 * i + 1) 0).isLt
  have h2 := (bytes.getD (4 * i + 2) 0).isLt
  have h3 := (bytes.getD (4 * i + 3) 0).isLt
  rw [BitVec.extractLsb'_toNat, packWord, toNat_append_bytes, Nat.shiftRight_eq_div_pow]
  interval_cases k <;> (try simp only [Nat.add_zero, Nat.mul_zero]) <;> omega

end Sys2Proof.Machine
end

