-- ==== Sys2Proof/Laws/Multiplexer.lean ====
section
/-! SUPPORT. The transforms a mode selects, and the ending of each command where all its checks pass. -/

namespace Sys2Proof.Machine

variable {s : State}

/-! ## The transforms -/

/-- Every recognised tag selects a mode (R28). -/
theorem exists_mode {tag : Byte} (h : tag.toNat ≤ 4) : ∃ m, modeOf tag = some m := by
  cases hm : modeOf tag with
  | none => have := modeOf_eq_none.mp hm; omega
  | some m => exact ⟨m, rfl⟩

/-- A transform of whole strides gives as many bytes as it takes, encrypt direction (R110, law M1 of R10). -/
theorem encTransform_length (m : Mode) (d : List Byte) (hk : KeyLen s.keylen.toNat) (hd : d.length % 16 = 0) :
    (encTransform s m d).length = d.length := by
  cases m with
  | ecb => exact ecb_length _ _ hd
  | modex m => exact Config.modex.enc_length m _ _ d (by rw [keyBytes_length]; exact hk) hd

/-- The same, decrypt direction. -/
theorem decTransform_length (m : Mode) (d : List Byte) (hk : KeyLen s.keylen.toNat) (hd : d.length % 16 = 0) :
    (decTransform s m d).length = d.length := by
  cases m with
  | ecb => exact ecb_length _ _ hd
  | modex m => exact Config.modex.dec_length m _ _ d (by rw [keyBytes_length]; exact hk) hd

/-- The decrypt direction undoes the encrypt direction on whole strides (law P2 of R9, law M3 of R10). -/
theorem decTransform_encTransform (m : Mode) (d : List Byte) (hk : KeyLen s.keylen.toNat) (hd : d.length % 16 = 0) :
    decTransform s m (encTransform s m d) = d := by
  have hk' : KeyLen s.keyBytes.length := by rw [keyBytes_length]; exact hk
  cases m with
  | ecb => exact ecb_ecb _ _ (fun b => Config.prim.dec_enc _ b hk') d hd
  | modex m => exact Config.modex.dec_enc m _ _ d hk' hd

/-- A transform reads no register but the key and the IV, encrypt direction. -/
theorem encTransform_congr {t : State} (m : Mode) (h1 : s.keylen = t.keylen) (h2 : s.key = t.key) (h3 : s.iv = t.iv) :
    encTransform s m = encTransform t m := by
  cases m <;> simp only [encTransform, State.keyBytes, State.ivBlock, h1, h2, h3]

/-- The same, decrypt direction. -/
theorem decTransform_congr {t : State} (m : Mode) (h1 : s.keylen = t.keylen) (h2 : s.key = t.key) (h3 : s.iv = t.iv) :
    decTransform s m = decTransform t m := by
  cases m <;> simp only [decTransform, State.keyBytes, State.ivBlock, h1, h2, h3]

/-! ## Where every check passes -/

theorem padEnding_done (h1 : s.sourceFits) (h2 : s.destFits) (h3 : s.overlapOK) (h4 : s.schemeOk)
    (h5 : s.len.toNat + padCount s.len.toNat ≤ s.dcap.toNat) :
    padEnding s = .done (s.len.toNat + padCount s.len.toNat)
      (some ⟨s.dst.toNat, s.len.toNat + padCount s.len.toNat, padBytes (s.mem.read s.src.toNat s.len.toNat)⟩) := by
  rw [padEnding_eq, if_neg (not_not.mpr h1), if_neg (not_not.mpr h2), if_neg (not_not.mpr h3),
    if_neg (not_not.mpr h4), if_neg (not_not.mpr h5)]

theorem adapter_done (f : List Byte → List Byte) (h1 : s.sourceFits) (h2 : s.destFits) (h3 : s.overlapOK)
    (h4 : KeyLen s.keylen.toNat) (h5 : s.len.toNat % 16 = 0) (h6 : s.len.toNat ≤ s.dcap.toNat) :
    checked (adapterChecks s) (transformEnding f s) =
      .done s.len.toNat (some ⟨s.dst.toNat, s.len.toNat, f (s.mem.read s.src.toNat s.len.toNat)⟩) := by
  rw [adapter_eq, if_neg (not_not.mpr h1), if_neg (not_not.mpr h2), if_neg (not_not.mpr h3),
    if_neg (not_not.mpr h4), if_neg (not_not.mpr h5), if_neg (not_not.mpr h6)]

theorem dispatch_done (f : State → Mode → List Byte → List Byte) {m : Mode} (h1 : s.sourceFits) (h2 : s.destFits)
    (h3 : s.overlapOK) (h4 : KeyLen s.keylen.toNat) (h5 : s.len.toNat % 16 = 0) (hm : modeOf s.cfg.mode = some m)
    (h6 : s.len.toNat ≤ s.dcap.toNat) :
    dispatchEnding f s =
      .done s.len.toNat (some ⟨s.dst.toNat, s.len.toNat, f s m (s.mem.read s.src.toNat s.len.toNat)⟩) := by
  rw [dispatch_eq, if_neg (not_not.mpr h1), if_neg (not_not.mpr h2), if_neg (not_not.mpr h3),
    if_neg (not_not.mpr h4), if_neg (not_not.mpr h5), hm]
  simp only
  rw [if_neg (not_not.mpr h6)]

/-- A command whose ending is `Done` runs to what `Done` leaves. -/
theorem exec_done {i : Instr} {r : Nat} {st : Option Store} (hf : s.status.fatal = false)
    (h : endingOf i s = .done r st) : exec i s = .next (s.done r st) := by rw [exec_run i hf, h]; rfl

/-! ## What an ending by `Done` says of the checks -/

theorem padEnding_inv {r : Nat} {st : Option Store} (h : padEnding s = .done r st) :
    s.sourceFits ∧ s.destFits ∧ s.overlapOK ∧ s.schemeOk ∧ s.len.toNat + padCount s.len.toNat ≤ s.dcap.toNat := by
  rw [padEnding_eq] at h
  repeat' split at h
  all_goals first | cases h; done | skip
  refine ⟨?_, ?_, ?_, ?_, ?_⟩ <;> exact not_not.mp (by assumption)

theorem adapter_inv {f : List Byte → List Byte} {r : Nat} {st : Option Store}
    (h : checked (adapterChecks s) (transformEnding f s) = .done r st) :
    s.sourceFits ∧ s.destFits ∧ s.overlapOK ∧ KeyLen s.keylen.toNat ∧ s.len.toNat % 16 = 0 ∧
      s.len.toNat ≤ s.dcap.toNat := by
  rw [adapter_eq] at h
  repeat' split at h
  all_goals first | cases h; done | skip
  refine ⟨?_, ?_, ?_, ?_, ?_, ?_⟩ <;> exact not_not.mp (by assumption)

theorem dispatch_inv {f : State → Mode → List Byte → List Byte} {r : Nat} {st : Option Store}
    (h : dispatchEnding f s = .done r st) :
    s.sourceFits ∧ s.destFits ∧ s.overlapOK ∧ KeyLen s.keylen.toNat ∧ s.len.toNat % 16 = 0 ∧
      (∃ m, modeOf s.cfg.mode = some m) ∧ s.len.toNat ≤ s.dcap.toNat := by
  rw [dispatch_eq] at h
  repeat' split at h
  all_goals first | cases h; done | skip
  refine ⟨?_, ?_, ?_, ?_, ?_, ⟨_, by assumption⟩, ?_⟩ <;> exact not_not.mp (by assumption)

end Sys2Proof.Machine
end

