-- ==== Sys2Proof/Laws/Padding.lean ====
section
/-! SUPPORT. The two pure functions of the padding dispatcher. -/

namespace Sys2Proof.Machine

/-- The padding count is 1 to 16 (R92). -/
theorem padCount_bounds (len : Nat) : 1 ≤ padCount len ∧ padCount len ≤ 16 := by
  unfold padCount
  omega

/-- The padded length is a multiple of 16. -/
theorem padCount_aligns (len : Nat) : (len + padCount len) % 16 = 0 := by
  unfold padCount
  omega

/-- The padding byte is the padding count. -/
theorem padByte_toNat (len : Nat) : (BitVec.ofNat 8 (padCount len)).toNat = padCount len := by
  have := padCount_bounds len
  simp only [BitVec.toNat_ofNat]
  omega

@[simp] theorem padBytes_length (data : List Byte) : (padBytes data).length = data.length + padCount data.length := by
  simp [padBytes]

/-- The first bytes of `pad(data)` are the data. -/
theorem getD_padBytes_data (data : List Byte) (k : Nat) (h : k < data.length) :
    (padBytes data).getD k 0 = data.getD k 0 := by
  simp [padBytes, List.getD_eq_getElem?_getD, List.getElem?_append_left h]

/-- The other bytes of `pad(data)` are the count. -/
theorem getD_padBytes_padding (data : List Byte) (k : Nat) (h : data.length ≤ k)
    (hk : k < data.length + padCount data.length) :
    (padBytes data).getD k 0 = BitVec.ofNat 8 (padCount data.length) := by
  have : k - data.length < padCount data.length := by omega
  simp [padBytes, List.getD_eq_getElem?_getD, List.getElem?_append_right h, this]

/-- `pad(data)` ends in the count. -/
theorem getLast?_padBytes (data : List Byte) :
    (padBytes data).getLast? = some (BitVec.ofNat 8 (padCount data.length)) := by
  have h := padCount_bounds data.length
  have h0 : padCount data.length ≠ 0 := by omega
  simp [padBytes, List.getLast?_append, List.getLast?_replicate, h0]

@[simp] theorem unpadBytes_nil : unpadBytes [] = some [] := rfl

/-- What `unpad` does on a sequence that ends in the byte `last`. -/
theorem unpadBytes_of_getLast? {data : List Byte} {last : Byte} (h : data.getLast? = some last) :
    unpadBytes data = if last.toNat ≥ data.length then none else some (data.take (data.length - last.toNat)) := by
  simp [unpadBytes, h]

/-- The last byte of a non-empty read. -/
theorem getLast?_read (m : Memory) (a n : Nat) (h : n ≠ 0) : (m.read a n).getLast? = some (m.byteAt (a + n - 1)) := by
  have h1 : a + (n - 1) = a + n - 1 := by omega
  rw [List.getLast?_eq_getElem?, Memory.read_length, List.getElem?_eq_getElem (by simp; omega), Memory.getElem_read, h1]

end Sys2Proof.Machine
end

