-- ==== Sys2Proof/Laws/PerInstr.lean ====
section
/-! SUPPORT. The statements made command by command (LAWS.json). -/

namespace Sys2Proof.Laws.RoundTrip

/-- The command is well formed, its word decodes to it, and the word is `UNIT` and `FN` with `ZERO = 0` (R71). -/
def Statement (i : Instr) : Prop :=
  i.wf = true ∧ decode (encode i) = .ok i ∧ zeroField (encode i) = 0 ∧ unitField (encode i) = unitOf i ∧
    fnField (encode i) = fnOf i

theorem pad : Statement .pad := by unfold Statement; decide
theorem unpad : Statement .unpad := by unfold Statement; decide
theorem ecbenc : Statement .ecbenc := by unfold Statement; decide
theorem ecbdec : Statement .ecbdec := by unfold Statement; decide
theorem xenc : Statement .xenc := by unfold Statement; decide
theorem xdec : Statement .xdec := by unfold Statement; decide

end Sys2Proof.Laws.RoundTrip
end

