-- ==== Sys2Proof/Tests/Slice0.lean ====
section
/-! SUPPORT. The model's own tests: the host moves WellFormed refuses, the command words written out field by field, one
command on one small state with the outcome of 95_test_vectors.md, and for each statement of the obligations a state and
operands that meet its hypotheses. -/

namespace Sys2Proof.Tests

open Sys2Proof Sys2Proof.Machine Sys2Proof.Machine.Claim

/-! ## Helpers -/

/-- Bytes of MEM from an address on. -/
def cellsAt (a : Nat) : List Byte → List Host.Cell
  | [] => []
  | b :: bs => (a, b) :: cellsAt (a + 1) bs

/-- The test machine of 95_test_vectors.md after `RESET`: 64 KiB of MEM with some bytes written, and the registers a
vector names. The key bank is zero. -/
def st (cells : List Host.Cell) (kl mode pads : Byte) (src len dst dcap : Word) : State :=
  { State.powerUp ⟨0x10000, cells⟩ with
    keylen := kl, cfg := ⟨mode, pads⟩, src := src, len := len, dst := dst, dcap := dcap }

/-- "this is content", `T15` of 95_test_vectors.md. -/
def t15 : List Byte := [0x74, 0x68, 0x69, 0x73, 0x20, 0x69, 0x73, 0x20, 0x63, 0x6f, 0x6e, 0x74, 0x65, 0x6e, 0x74]

/-- `STATUS` and `RLEN`, as the host reads them after a step. -/
def seen : Host.Outcome State Fault Refusal → Option (Nat × Nat)
  | .next t => some ((readReg t .status).toNat, (readReg t .rlen).toNat)
  | .fault _ => none
  | .refused _ => none

/-- Some bytes of MEM after a step. -/
def seenMem (addr n : Nat) : Host.Outcome State Fault Refusal → Option (List Byte)
  | .next t => some (t.mem.read addr n)
  | .fault _ => none
  | .refused _ => none

/-- Why a step refused. -/
def refusedBy : Host.Outcome State Fault Refusal → Option Refusal
  | .next _ => none
  | .fault _ => none
  | .refused r => some r

/-- A state with one host move to make. -/
def one (m : HostMove) (s : State) : State := { s with moves := [m] }

/-! ## WellFormed: an ill-formed move for each check, which the step refuses -/

theorem test_refuses_unaligned_offset : HostMove.wf State.reset.mem (.regRead 0x42) = false := by decide
theorem test_refuses_offset_past_the_space : HostMove.wf State.reset.mem (.regWrite 0x100 0) = false := by decide
theorem test_refuses_empty_mem_read : HostMove.wf State.reset.mem (.memRead 0 0) = false := by decide
theorem test_refuses_mem_read_past_the_end : HostMove.wf State.reset.mem (.memRead 0xFFFF 2) = false := by decide
theorem test_refuses_empty_mem_write : HostMove.wf State.reset.mem (.memWrite 0 []) = false := by decide
theorem test_refuses_mem_write_past_the_end : HostMove.wf State.reset.mem (.memWrite 0x10000 [0]) = false := by decide
theorem test_step_refuses_unaligned_offset :
    refusedBy (step (one (.regRead 0x42) .reset)) = some .regAccess := by decide
theorem test_step_refuses_mem_past_the_end :
    refusedBy (step (one (.memRead 0xFFFF 2) .reset)) = some .memAccess := by decide
theorem test_accepts_last_offset : HostMove.wf State.reset.mem (.regWrite 0xFC 0) = true := by decide
theorem test_accepts_last_byte : HostMove.wf State.reset.mem (.memWrite 0xFFFF [0]) = true := by decide
theorem test_instr_wf : Instr.wf .pad = true := by decide

/-! ## Decoding: `ZERO`, `UNIT` and `FN` of R71 written out -/

theorem test_decode_pad : decode (0x000000#24 ++ 0b0001#4 ++ 0b0000#4) = .ok .pad := by decide
theorem test_decode_unpad : decode (0x000000#24 ++ 0b0001#4 ++ 0b0001#4) = .ok .unpad := by decide
theorem test_decode_ecbenc : decode (0x000000#24 ++ 0b0010#4 ++ 0b0000#4) = .ok .ecbenc := by decide
theorem test_decode_ecbdec : decode (0x000000#24 ++ 0b0010#4 ++ 0b0001#4) = .ok .ecbdec := by decide
theorem test_decode_xenc : decode (0x000000#24 ++ 0b0011#4 ++ 0b0000#4) = .ok .xenc := by decide
theorem test_decode_xdec : decode (0x000000#24 ++ 0b0011#4 ++ 0b0001#4) = .ok .xdec := by decide

/-- V70: the words the spec lists as illegal. -/
theorem test_decode_illegal : [0x00, 0x01, 0x12, 0x1F, 0x22, 0x32, 0x40, 0xF0, 0x110, 0x00010010, 0x80000010,
    0xFFFFFFFF].map (decodeTableWord 32) = List.replicate 12 none := by decide

/-- The table's words, numbered as the table numbers them, run as the first command after reset (V90). -/
theorem test_fetch_pad : seen (step (State.reset.withFetchWord 32 0x10)) = some (0x80000200, 0) := by decide
theorem test_fetch_unpad : seen (step (State.reset.withFetchWord 32 0x11)) = some (0, 0) := by decide
theorem test_fetch_xenc : seen (step (State.reset.withFetchWord 32 0x30)) = some (6, 0) := by decide
theorem test_fetch_illegal : seen (step (State.reset.withFetchWord 32 0x110)) = some (8, 0) := by decide

/-! ## One command on one state: the vectors of 95_test_vectors.md -/

/-- V3: `n = 1` is appended in place. -/
theorem test_pad : seenMem 0x10E 2 (exec .pad (st (cellsAt 0x100 t15) 0 1 1 0x100 0xF 0x100 0x10)) = some [0x74, 0x01] := by
  decide

/-- V75: the sum of `SRC` and `LEN` is not wrapped. -/
theorem test_pad_bounds : seen (exec .pad (st [] 0 1 1 0xFFFFFFF0 0x20 0 0x30)) = some (0x80000300, 0) := by decide

/-- V19: `n = 17` is not rejected. -/
theorem test_unpad : seen (exec .unpad (st [(0x11F, 0x11)] 0 1 1 0x100 0x20 0 0)) = some (0, 0xF) := by decide

/-- V15: the last byte equals the length. -/
theorem test_unpad_all_padding : seen (exec .unpad (st [(0x103, 0x04)] 0 1 1 0x100 4 0 0)) = some (4, 0) := by decide

/-- V79: adjacent buffers are disjoint. -/
theorem test_ecbenc : seen (exec .ecbenc (st [] 16 1 1 0x100 0x10 0x110 0x10)) = some (0, 0x10) := by decide

/-- V45: `F_SRCLEN` comes before `F_DSTCAP`. -/
theorem test_ecbenc_order : seen (exec .ecbenc (st [] 16 1 1 0x100 0x11 0x200 0)) = some (0x80000100, 0) := by decide

/-- V42, for `ECBDEC`: an empty buffer passes every check. -/
theorem test_ecbdec : seen (exec .ecbdec (st [] 16 1 1 0x100 0 0x200 0)) = some (0, 0) := by decide

/-- V78, for `ECBDEC`: the destination reaches into the source. -/
theorem test_ecbdec_overlap : seen (exec .ecbdec (st [] 16 1 1 0x110 0x10 0x100 0x20)) = some (0x80000400, 0) := by decide

/-- V51: `ERR_BLOCK_LENGTH` where the adapter faults. -/
theorem test_xenc : seen (exec .xenc (st [] 16 0 1 0x100 0xF 0x200 0x20)) = some (5, 0) := by decide

/-- V58: `F_DSTCAP` in mode CBC. -/
theorem test_xenc_room : seen (exec .xenc (st [] 16 1 1 0x100 0x20 0x200 0x10)) = some (0x80000200, 0) := by decide

/-- V52, for `XDEC`: an unrecognised mode. -/
theorem test_xdec : seen (exec .xdec (st [] 16 5 1 0x100 0x10 0x200 0x20)) = some (1, 0) := by decide

/-- V56, for `XDEC`: mode CBC, by MODEX. -/
theorem test_xdec_modex : seen (exec .xdec (st [] 16 1 1 0x100 0x10 0x200 0x20)) = some (0, 0x10) := by decide

/-- V84: a fault leaves `RLEN` as it was. -/
theorem test_fault_keeps_rlen :
    seen (exec .ecbenc { st [] 16 1 1 0x100 0xF 0x200 0x10 with rlen := 0x10 }) = some (0x80000100, 0x10) := by decide

/-- V88: what `CFG` reads after a write of all ones. -/
theorem test_cfg_reads_back : readReg (storeReg State.reset .cfg 0xFFFFFFFF) .cfg = 0x0000FFFF := by decide

/-- V89: IV bytes 12 to 15 after a write to `IV3`. -/
theorem test_iv_bytes : (storeReg State.reset (.iv 3) 0xDEADBEEF).ivBlock.toList.drop 12 = [0xef, 0xbe, 0xad, 0xde] := by
  decide

/-- The encoding of `pad(0x100, 15, 0x100, 16)` that R140 lists. -/
theorem test_pad_encoding : encodingOf (padMoves 0x100 15 0x100 16) =
    [(0x40, 0x00000100), (0x44, 0x0000000F), (0x48, 0x00000100), (0x4C, 0x00000010), (0x00, 0x00000010)] := by decide

/-- The encoding of P1's `SETKEY`. -/
theorem test_setKey_encoding :
    encodingOf (setKey [0x31, 0x32, 0x33, 0x34, 0x35, 0x36, 0x37, 0x38, 0x31, 0x32, 0x33, 0x34, 0x35, 0x36, 0x37, 0x38]) =
      [(0x0C, 0x00000010), (0x10, 0x34333231), (0x14, 0x38373635), (0x18, 0x34333231), (0x1C, 0x38373635)] := by decide

/-! ## Witnesses: for each statement with hypotheses, a state and operands that meet them all -/

/-- A state with some host moves to make. -/
def moving (moves : List HostMove) : State := { State.reset with moves := moves }

/-- A frozen state: `F_DSTCAP` after reset. -/
def frozen : State := State.reset.raiseFatal .dstCap

/-- The frozen state with some host moves to make. -/
def frozenMoving (moves : List HostMove) : State := { frozen with moves := moves }

/-- 16 source bytes at 0x100, room for 32 at 0x200, a 16-byte key of zeros. -/
def block (mode pads : Byte) : State := st [] 16 mode pads 0x100 0x10 0x200 0x20

theorem witness_IllegalWordIsRecoverable : ∃ (s : State) (w : Word) (rest : List HostMove),
    s.moves = .regWrite 0x00 w :: rest ∧ s.status.fatal = false ∧ ∀ i, w ≠ word i :=
  ⟨moving [.regWrite 0 0x110], 0x110, [], rfl, rfl, fun i => by cases i <;> decide⟩

theorem witness_StepRunsDecodedCommand : ∃ (s : State) (w : Word) (rest : List HostMove) (i : Instr),
    s.moves = .regWrite 0x00 w :: rest ∧ decode w = .ok i :=
  ⟨moving [.regWrite 0 0x31], 0x31, [], .xdec, rfl, by decide⟩

theorem witness_StepRunsDecodedCommand_idle : State.reset.moves = [] := by decide

theorem witness_ChecksRunInPriorityOrder :
    State.reset.status.fatal = false ∧ frozen.status.fatal = true ∧ ∀ i, (0xFFFFFFFF : Word) ≠ word i :=
  ⟨rfl, rfl, fun i => by cases i <;> decide⟩

/-- Where two checks fail the first one of the table is reported: V82 (geometry before scheme), V55 (key before length
before mode), V45 (source length before room). -/
theorem witness_priorities :
    firstOut (priority (st [] 0 1 2 0xFFF8 0x10 0 0) .pad) = .fatal 3 ∧
    firstOut (priority (st [] 0x14 9 1 0x100 0xF 0x200 0x20) .xenc) = .err 6 ∧
    firstOut (priority (st [] 16 1 1 0x100 0x11 0x200 0) .ecbenc) = .fatal 1 ∧
    firstOut (priority (st [] 0 1 7 0x100 0 0 0) .unpad) = .err 2 ∧
    firstOut (priority (st [] 0 1 1 0x10000 0 0 0) .unpad) = .done := by decide

theorem witness_DoneWritesOnlyItsResult : ∃ s t : State,
    s.status.fatal = false ∧ exec .pad s = .next t ∧ outOf t = .done := ⟨block 1 1, _, rfl, rfl, by decide⟩

theorem witness_ErrorLeavesEverythingElse : ∃ s t : State,
    s.status.fatal = false ∧ exec .pad s = .next t ∧ outOf t = .err 2 := ⟨block 1 2, _, rfl, rfl, by decide⟩

theorem witness_FatalWritesOnlyItsCause : ∃ s t : State,
    s.status.fatal = false ∧ exec .pad s = .next t ∧ outOf t = .fatal 2 := ⟨State.reset, _, rfl, rfl, by decide⟩

theorem witness_FatalWritesOnlyItsCause_step :
    (∃ t, (moving [.regWrite 0 0x10]).inv ∧ step (moving [.regWrite 0 0x10]) = .next t ∧ t.status.fatal = true) ∧
    (∃ t, State.reset.inv ∧ step State.reset = .next t ∧ t.status.fatal = false) :=
  ⟨⟨_, by decide, rfl, rfl⟩, ⟨_, by decide, rfl, rfl⟩⟩

theorem witness_FrozenUntilReset : ∀ m ∈ [HostMove.regWrite 0 0x10, .regWrite 0x44 1, .regRead 0xFC, .memWrite 0xFFFF [1],
    .memRead 0 0x10000, .reset], (frozenMoving [m]).status.fatal = true ∧ (frozenMoving [m]).moves = m :: [] ∧
      HasMove (frozenMoving [m]) m := by
  intro m h
  refine ⟨rfl, rfl, ?_⟩
  simp only [List.mem_cons, List.not_mem_nil, or_false] at h
  rcases h with rfl | rfl | rfl | rfl | rfl | rfl
  · exact ⟨rfl, by decide⟩
  · exact ⟨rfl, by decide⟩
  · exact ⟨rfl, by decide⟩
  · exact ⟨by decide, by decide⟩
  · exact ⟨by decide, by decide⟩
  · exact True.intro

theorem witness_RegisterReadFollowsTheMap : ∃ (s : State) (off : Nat) (rest : List HostMove),
    s.moves = .regRead off :: rest ∧ Offset off := ⟨moving [.regRead 0xFC], 0xFC, [], rfl, by decide⟩

theorem witness_RegisterWriteFollowsTheMap : ∃ (s : State) (off : Nat) (v : Word) (rest : List HostMove),
    s.moves = .regWrite off v :: rest ∧ Offset off ∧ off ≠ 0x00 ∧ s.status.fatal = false :=
  ⟨moving [.regWrite 0x2C 0xFFFFFFFF], 0x2C, 0xFFFFFFFF, [], rfl, by decide, by decide, rfl⟩

/-- The ranges of R20's table at their ends: no offset falls under two rows. -/
theorem witness_valueAt_ranges :
    let s := { State.reset with key := Vector.replicate 8 7, iv := Vector.replicate 4 9, src := 11, dcap := 13, rlen := 15 }
    [0x0C, 0x10, 0x2C, 0x30, 0x3C, 0x40, 0x4C, 0x50, 0x54, 0xFC].map (valueAt s) = [0, 7, 7, 9, 9, 11, 13, 15, 0, 0] := by
  decide

theorem witness_RefusedExactlyWhenNotAMove :
    (moving [.memRead 0x10000 1]).moves = .memRead 0x10000 1 :: [] ∧ ¬HasMove (moving [.memRead 0x10000 1]) (.memRead 0x10000 1) ∧
    HasMove (moving []) (.memRead 0xFFFF 1) :=
  ⟨rfl, fun h => absurd h.2 (by decide), by decide, by decide⟩

theorem witness_HostMemMoves_read : ∃ (s : State) (addr n : Nat) (rest : List HostMove),
    s.moves = .memRead addr n :: rest ∧ 1 ≤ n ∧ addr + n ≤ s.mem.size :=
  ⟨moving [.memRead 0xFFFE 2], 0xFFFE, 2, [], rfl, by decide, by decide⟩

theorem witness_HostMemMoves_write : ∃ (s : State) (addr : Nat) (bytes : List Byte) (rest : List HostMove),
    s.moves = .memWrite addr bytes :: rest ∧ 1 ≤ bytes.length ∧ addr + bytes.length ≤ s.mem.size ∧
      s.status.fatal = false :=
  ⟨moving [.memWrite 0xFFFE [1, 2]], 0xFFFE, [1, 2], [], rfl, by decide, by decide, rfl⟩

theorem witness_HostMemMoves_frozen : ∃ (s : State) (addr : Nat) (bytes : List Byte) (rest : List HostMove),
    s.moves = .memWrite addr bytes :: rest ∧ 1 ≤ bytes.length ∧ addr + bytes.length ≤ s.mem.size ∧
      s.status.fatal = true :=
  ⟨frozenMoving [.memWrite 0xFFFE [1, 2]], 0xFFFE, [1, 2], [], rfl, by decide, by decide, rfl⟩

theorem witness_HostMemMoves_refused :
    (moving [.memRead 0xFFFF 2]).moves = .memRead 0xFFFF 2 :: [] ∧ State.reset.mem.size < 0xFFFF + 2 ∧
    (moving [.memWrite 5 []]).moves = .memWrite 5 [] :: [] := by decide

theorem witness_ReadSeesLatestWrite : ∃ (s : State) (addr off a n : Nat) (bytes : List Byte) (rest : List HostMove),
    s.status.fatal = false ∧ 1 ≤ bytes.length ∧ addr + bytes.length ≤ s.mem.size ∧ 1 ≤ n ∧ a + n ≤ s.mem.size ∧
      Offset off ∧ s.moves = .memWrite addr bytes :: .regRead off :: .memRead a n :: .memRead addr bytes.length :: rest :=
  ⟨moving [.memWrite 0xFFFE [1, 2], .regRead 4, .memRead 0 1, .memRead 0xFFFE 2], 0xFFFE, 4, 0, 1, [1, 2], [], rfl,
    by decide, by decide, by decide, by decide, by decide, rfl⟩

theorem witness_OnlyTheHostChangesConfiguration_write : ∃ (s t : State) (off : Nat), step s = .next t ∧ Offset off ∧
    0x08 ≤ off ∧ off ≤ 0x4C ∧ valueAt t off ≠ valueAt s off ∧ ∃ v rest, s.moves = .regWrite off v :: rest :=
  ⟨moving [.regWrite 0x08 0], _, 0x08, rfl, by decide, by decide, by decide, by decide, _, _, rfl⟩

theorem witness_OnlyTheHostChangesConfiguration_reset : ∃ (s t : State) (off : Nat), step s = .next t ∧ Offset off ∧
    0x08 ≤ off ∧ off ≤ 0x4C ∧ valueAt t off ≠ valueAt s off ∧ ∃ rest, s.moves = .reset :: rest :=
  ⟨{ moving [.reset] with dcap := 1 }, _, 0x4C, rfl, by decide, by decide, by decide, by decide, _, rfl⟩

theorem witness_ResetGivesTheResetValues : ∃ (s : State) (rest : List HostMove), s.moves = .reset :: rest :=
  ⟨frozenMoving [.reset], [], rfl⟩

theorem witness_ResetGivesTheResetValues_fatal : ∃ s t : State, step s = .next t ∧ s.status.fatal = true ∧
    t.status.fatal = false := ⟨frozenMoving [.reset], _, rfl, rfl, rfl⟩

theorem witness_ResetMeetsTheInvariant : Memory.wf ⟨0x10000, cellsAt 0x100 t15⟩ := by decide

theorem witness_KeyIsPackedLittleEndian : ∀ kl ∈ [(16 : Byte), 24, 32], KeyLen (st [] kl 1 1 0 0 0 0).keylen.toNat := by
  decide

theorem witness_PadCompletes : ∀ s ∈ [block 1 1, st [] 0 1 0 0xFFF0 0 0xFFF0 0x10, st [] 0 1 1 0x100 0xF 0x100 0x10],
    s.status.fatal = false ∧ Geometry s ∧ Scheme s ∧ s.len.toNat + padding s.len.toNat ≤ s.dcap.toNat := by decide

theorem witness_UnpadCompletes : ∀ s ∈ [st [] 0 1 1 0x10000 0 0xFFFFFFFF 0xFFFFFFFF, st [(0x1FF, 0xFF)] 0 1 1 0x100 0x100 0 0,
      st [(0x100, 0)] 0 1 1 0x100 1 0 0],
    s.status.fatal = false ∧ SourceFits s ∧ Scheme s ∧
      (s.len ≠ 0 → (s.mem.byteAt (s.src.toNat + s.len.toNat - 1)).toNat < s.len.toNat) := by decide

theorem witness_PaddingSchemesAgree :
    (block 1 1).status.fatal = false ∧ ¬Scheme (block 1 2) ∧ ¬Scheme (block 1 255) ∧ SourceFits (block 1 2) ∧
      DestFits (block 1 2) ∧ Apart (block 1 2) := by decide

theorem witness_PadMeetsTheDispatcher : ∃ s t u : State, s.status.fatal = false ∧ exec .pad s = .next t ∧
    outOf t = .done ∧ exec .xenc { t with src := t.dst, len := t.rlen } = .next u :=
  ⟨block 1 1, _, _, rfl, rfl, by decide, rfl⟩

theorem witness_UnpadUndoesPad : ∃ s t : State, s.status.fatal = false ∧ exec .pad s = .next t ∧ outOf t = .done ∧
    s.len ≠ 0 := ⟨block 1 1, _, rfl, rfl, by decide, by decide⟩

theorem witness_UnpadUndoesPad_empty : ∃ s t : State, s.status.fatal = false ∧ exec .pad s = .next t ∧
    outOf t = .done ∧ s.len = 0 := ⟨st [] 0 1 1 0 0 0 16, _, rfl, rfl, by decide, by decide⟩

theorem witness_EcbIsPrimOnEachStride : ∃ (s : List Byte) (i : Nat) (b : Block), s.length % 16 = 0 ∧
    i < s.length / 16 ∧ b.toList = (s.drop (16 * i)).take 16 :=
  ⟨List.replicate 32 0, 1, Vector.replicate 16 0, by decide, by decide, by decide⟩

theorem witness_EcbCommandsComplete : ∀ s ∈ [block 1 1, st [] 24 1 1 0x100 0 0xFFFF 0, st [] 32 1 1 0xFFF0 0x10 0xFFF0 0x10],
    s.status.fatal = false ∧ Geometry s ∧ KeyLen s.keylen.toNat ∧ s.len.toNat % 16 = 0 ∧
      s.len.toNat ≤ s.dcap.toNat := by decide

/-- The buffers of `StrideDatapathIsTheSnapshot`: apart, of no byte, and in place at the end of MEM. -/
theorem witness_StrideDatapathIsTheSnapshot :
    ∀ s ∈ [block 1 1, st [] 24 1 1 0x100 0 0xFFFF 0, st [] 32 1 1 0xFFE0 0x20 0xFFE0 0x20],
    s.status.fatal = false ∧ Geometry s ∧ KeyLen s.keylen.toNat ∧ s.len.toNat % 16 = 0 ∧
      s.len.toNat ≤ s.dcap.toNat := by decide

theorem witness_EcbdecUndoesEcbenc : ∃ (s t u : State) (c cap : Word), s.status.fatal = false ∧
    exec .ecbenc s = .next t ∧ outOf t = .done ∧
    exec .ecbdec { t with src := s.dst, dst := c, dcap := cap } = .next u ∧ outOf u = .done :=
  ⟨block 1 1, _, _, 0x300, 0x10, rfl, rfl, by decide, rfl, by decide⟩

/-- Two strides of equal bytes, in two runs, at two indexes. -/
theorem witness_EcbBlocksAreIndependent : ∃ (s s' t t' : State) (n n' : Nat), s.status.fatal = false ∧
    s'.status.fatal = false ∧ exec .ecbenc s = .next t ∧ outOf t = .done ∧ exec .ecbenc s' = .next t' ∧
    outOf t' = .done ∧ s.keyBytes = s'.keyBytes ∧ n < s.len.toNat / 16 ∧ n' < s'.len.toNat / 16 ∧
    sourceStride s n = sourceStride s' n' :=
  ⟨block 1 1, st [] 16 4 9 0xF0 0x20 0x200 0x20, _, _, 0, 1, rfl, rfl, rfl, by decide, rfl, by decide, rfl, by decide,
    by decide, rfl⟩

theorem witness_EcbSplitsAtStrides : ∃ (s t : State) (a : Word), s.cfg.mode = 0 ∧ s.mem.wf ∧ s.status.fatal = false ∧
    exec .xenc s = .next t ∧ outOf t = .done ∧ a.toNat % 16 = 0 ∧ a.toNat ≤ s.len.toNat :=
  ⟨st [] 16 0 1 0x100 0x20 0x100 0x20, _, 0x10, rfl, by decide, rfl, rfl, by decide, by decide, by decide⟩

theorem witness_XencCompletes : ∀ mode ∈ [(0 : Byte), 1, 2, 3, 4], (block mode 9).status.fatal = false ∧
    Geometry (block mode 9) ∧ KeyLen (block mode 9).keylen.toNat ∧ (block mode 9).len.toNat % 16 = 0 ∧
    (block mode 9).cfg.mode.toNat ≤ 4 ∧ (block mode 9).len.toNat ≤ (block mode 9).dcap.toNat := by decide

/-- The hypotheses of `XdecCompletes` are those of `XencCompletes`. -/
theorem witness_XdecCompletes : ∀ mode ∈ [(0 : Byte), 1, 2, 3, 4], (block mode 9).status.fatal = false ∧
    Geometry (block mode 9) ∧ KeyLen (block mode 9).keylen.toNat ∧ (block mode 9).len.toNat % 16 = 0 ∧
    (block mode 9).cfg.mode.toNat ≤ 4 ∧ (block mode 9).len.toNat ≤ (block mode 9).dcap.toNat := witness_XencCompletes

theorem witness_EcbModeIsTheAdapter :
    ((block 0 1).cfg.mode = 0 ∧ (block 0 1).len.toNat % 16 = 0) ∧
    ∀ s ∈ [st [] 16 0 1 0x100 0xF 0x200 0x20], s.cfg.mode = 0 ∧ s.len.toNat % 16 ≠ 0 ∧ s.status.fatal = false ∧
      Geometry s ∧ KeyLen s.keylen.toNat := by decide

theorem witness_XdecUndoesXenc : ∃ (s t u : State) (c cap : Word), s.status.fatal = false ∧
    exec .xenc s = .next t ∧ outOf t = .done ∧
    exec .xdec { t with src := s.dst, dst := c, dcap := cap } = .next u ∧ outOf u = .done :=
  ⟨block 4 1, _, _, 0x300, 0x10, rfl, rfl, by decide, rfl, by decide⟩

/-- Two states that differ in the IV, the padding tag, `RLEN` and `ERR`, none of which `ECBENC` reads. -/
theorem witness_CommandsReadOnlyTheirOperands : ∃ s s' t t' : State, s.status.fatal = false ∧ s'.status.fatal = false ∧
    s ≠ s' ∧ AgreeOn .ecbenc s s' ∧ exec .ecbenc s = .next t ∧ exec .ecbenc s' = .next t' :=
  ⟨block 1 1, { block 1 7 with iv := Vector.replicate 4 5, rlen := 3, status := ⟨5, 0, false⟩ }, _, _, rfl, rfl,
    by decide, by decide, rfl, rfl⟩

/-- Two states that differ in a byte outside the source buffer. -/
theorem witness_CommandsStayInTheirBuffers : ∃ (s t t' : State) (mem' : Memory), s.status.fatal = false ∧
    mem'.size = s.mem.size ∧ (∀ k, k < s.len.toNat → mem'.byteAt (s.src.toNat + k) = s.mem.byteAt (s.src.toNat + k)) ∧
    exec .pad s = .next t ∧ exec .pad { s with mem := mem' } = .next t' ∧ outOf t = .done := by
  refine ⟨st [] 0 1 1 0x100 1 0x200 0x20, _, _, ⟨0x10000, [(0x101, 7)]⟩, rfl, rfl, fun k hk => ?_, rfl, rfl, by decide⟩
  have : k = 0 := by
    have : k < 1 := hk
    omega
  subst this
  rfl

theorem witness_GeometryFaultsExactly : ∃ s t t' : State, s.status.fatal = false ∧
    exec .pad s = .next t ∧ outOf t = .fatal 4 ∧
    exec .pad { s with src := 0x10000 } = .next t' ∧ outOf t' = .fatal 3 :=
  ⟨st [] 0 1 1 0x100 0x20 0x110 0x20, _, _, rfl, rfl, by decide, rfl, by decide⟩

theorem witness_StepKeepsTheInvariant : ∃ s t : State, s.inv ∧ step s = .next t ∧ t ≠ s :=
  ⟨moving [.memWrite 0 [1]], _, by decide, rfl, by decide⟩

theorem witness_FatalIsSticky_cleared : ∃ s t : State, step s = .next t ∧ s.status.fatal = true ∧
    t.status.fatal = false := ⟨frozenMoving [.reset], _, rfl, rfl, rfl⟩

theorem witness_FatalIsSticky_set : ∃ s t : State, step s = .next t ∧ s.status.fatal = false ∧ t.status.fatal = true :=
  ⟨moving [.regWrite 0 0x10], _, rfl, rfl, rfl⟩

theorem witness_FatalIsSticky_kept : ∃ s t : State, step s = .next t ∧ s.status.fatal = true ∧ t.status.fatal = true :=
  ⟨frozenMoving [.regWrite 0 0x10], _, rfl, rfl, rfl⟩

theorem witness_DecryptUndoesEncrypt : ∃ (s : State) (src len dst cap out room : Word), s.status.fatal = false ∧
    KeyLen s.keylen.toNat ∧ s.cfg.mode.toNat ≤ 4 ∧ Scheme s ∧ 1 ≤ len.toNat ∧ src.toNat + len.toNat ≤ s.mem.size ∧
    dst.toNat + cap.toNat ≤ s.mem.size ∧ ApartAt src.toNat len.toNat dst.toNat cap.toNat ∧
    len.toNat + padding len.toNat ≤ cap.toNat ∧ out.toNat + room.toNat ≤ s.mem.size ∧
    ApartAt dst.toNat (len.toNat + padding len.toNat) out.toNat room.toNat ∧
    len.toNat + padding len.toNat ≤ room.toNat :=
  ⟨block 1 1, 0x100, 0xF, 0x200, 0x10, 0x300, 0x10, by decide, by decide, by decide, by decide, by decide, by decide,
    by decide, by decide, by decide, by decide, by decide, by decide⟩

theorem witness_EmptyPlaintextDoesNotDecrypt : ∃ (s : State) (src dst cap out room : Word), s.status.fatal = false ∧
    KeyLen s.keylen.toNat ∧ s.cfg.mode.toNat ≤ 4 ∧ Scheme s ∧ src.toNat ≤ s.mem.size ∧
    dst.toNat + cap.toNat ≤ s.mem.size ∧ 16 ≤ cap.toNat ∧ out.toNat + room.toNat ≤ s.mem.size ∧
    ApartAt dst.toNat 16 out.toNat room.toNat ∧ 16 ≤ room.toNat :=
  ⟨block 0 1, 0x100, 0x200, 0x10, 0x300, 0x10, by decide, by decide, by decide, by decide, by decide, by decide,
    by decide, by decide, by decide, by decide⟩

/-- Buffers that pass the checks, under an illegal key length, under unknown padding, and under an unknown mode. -/
theorem witness_FacadeErrorsInOrder : ∀ s ∈ [st [] 0x14 9 9 0 0 0 0, block 1 2, block 5 1],
    s.status.fatal = false ∧ 0x100 + 0x10 ≤ s.mem.size ∧ 0x200 + 0x20 ≤ s.mem.size ∧
      ApartAt 0x100 0x10 0x200 0x20 ∧ 0x10 + padding 0x10 ≤ 0x20 ∧
      (¬KeyLen s.keylen.toNat ∨ (KeyLen s.keylen.toNat ∧ ¬Scheme s ∧ s.cfg.mode.toNat ≤ 4) ∨
        (KeyLen s.keylen.toNat ∧ Scheme s ∧ 5 ≤ s.cfg.mode.toNat)) := by decide

theorem witness_MacrosWriteOperandsThenIssue : State.reset.status.fatal = false := by decide

theorem witness_NewOptionsLoadsKeyAndIv : ∃ key iv : List Byte, KeyLen key.length ∧ iv.length = 16 :=
  ⟨List.replicate 24 1, List.replicate 16 2, by decide, by decide⟩

end Sys2Proof.Tests
end

/-! PROOFS. The state of the block (10_state.md): the effects one step can have, the invariant they keep, and the register
map as the host reads it; then the obligations of that file. -/

namespace Sys2Proof

/-! ## The command word -/

/-- The command word of a row of the opcode table is the only one that decodes to its command (R71). -/
theorem eq_word_of_decode {w : Word} {i : Instr} (h : decode w = .ok i) : w = Machine.Claim.word i := by
  have hw := toNat_fields w
  unfold decode at h
  split at h
  · cases h
  · rename_i hz
    rw [not_not.mp hz] at hw
    apply BitVec.eq_of_toNat_eq
    split at h <;> cases h <;> simp_all [Machine.Claim.word]

/-- R71's word of a command decodes to it. -/
theorem decode_word (i : Instr) : decode (Machine.Claim.word i) = .ok i := by cases i <;> decide

/-- A 32-bit word is the table word of its own number. -/
theorem tableWord_toNat (w : Word) : tableWord 32 w.toNat = w := by
  rw [tableWord, Nat.mod_eq_of_lt w.isLt, BitVec.ofNat_toNat, BitVec.setWidth_eq]

namespace Machine

open Claim

variable {s t : State}

/-! ## What one step can do -/

/-- A write to `CMD` holds a frozen block and otherwise leaves what its ending leaves: `ERR_ILLEGAL_CMD`, or the ending
of the command whose word was written (R22, R73, R158). -/
theorem cmdWrite_cases {w : Word} (h : cmdWrite w s = .next t) :
    (s.status.fatal = true ∧ t = s) ∨
    (s.status.fatal = false ∧ (∀ i, w ≠ word i) ∧ t = s.raiseErr .illegalCmd) ∨
    (s.status.fatal = false ∧ ∃ i, w = word i ∧ t = s.finish (endingOf i s)) := by
  cases hf : s.status.fatal with
  | true =>
    obtain ⟨body, hb⟩ := cmdWrite_eq w s
    rw [hb, command_frozen hf] at h
    exact .inl ⟨rfl, (Host.Outcome.next.inj h).symm⟩
  | false =>
    cases hd : decode w with
    | error e =>
      rw [cmdWrite_illegal hd, illegalCommand, command_run hf] at h
      have hw : ∀ i, w ≠ word i := by
        rintro i rfl
        cases (decode_word i).symm.trans hd
      exact .inr (.inl ⟨rfl, hw, (Host.Outcome.next.inj h).symm⟩)
    | ok i =>
      rw [cmdWrite_ok hd] at h
      exact .inr (.inr ⟨rfl, i, eq_word_of_decode hd, eq_finish_of_exec hf h⟩)

/-- A move the host has is made (R21, R52). -/
theorem hostMove_next {m : HostMove} (h : HasMove s m) : ∃ t, hostMove m s = .next t := by
  cases m with
  | regRead off => exact ⟨_, hostRegRead_ok s (regAt_of h)⟩
  | regWrite off v =>
    by_cases hc : slotReg (off / 4) = .cmd
    · obtain ⟨body, hb⟩ := cmdWrite_eq v s
      obtain ⟨t, ht⟩ := command_next body s
      have hoff : Reg.offset .cmd = off := offset_of_regAt (hc ▸ regAt_of h) (by decide)
      subst hoff
      exact ⟨t, hb.trans ht⟩
    · exact ⟨_, hostRegWrite_reg v (regAt_of h) hc⟩
  | memRead addr n => exact ⟨_, hostMemRead_ok s h⟩
  | memWrite addr bytes => exact ⟨_, hostMemWrite_ok s h⟩
  | reset => exact ⟨_, rfl⟩

/-- A move the host does not have is refused (R21, R52). -/
theorem hostMove_refused {m : HostMove} (h : ¬HasMove s m) : ∃ r, hostMove m s = .refused r := by
  cases m with
  | regRead off => exact ⟨.regAccess, by rw [hostMove, hostRegRead, regAt_eq_none.mpr h]⟩
  | regWrite off v => exact ⟨.regAccess, by rw [hostMove, hostRegWrite, regAt_eq_none.mpr h]⟩
  | memRead addr n => exact ⟨.memAccess, if_neg (h ∘ memAccessOk_iff.mp)⟩
  | memWrite addr bytes => exact ⟨.memAccess, if_neg (h ∘ memAccessOk_iff.mp)⟩
  | reset => exact absurd trivial h

theorem hasMove_of_hostMove {m : HostMove} (h : hostMove m s = .next t) : HasMove s m := by
  by_contra hm
  obtain ⟨r, hr⟩ := hostMove_refused hm
  cases hr.symm.trans h

/-- Everything a step from `s` with a next state can do. -/
inductive StepEffect (s : State) : State → Prop
  /-- No register and no byte of MEM changes: an idle block, a read, or any write to a frozen block (R21, R52, R158). -/
  | keep (rest : List HostMove) (reply : Option Reply) : StepEffect s { s with moves := rest, reply := reply }
  /-- `Reset` (R175). -/
  | reset (rest : List HostMove) (hm : s.moves = .reset :: rest) : StepEffect s (s.takeMove rest).resetMove
  /-- A write to a register other than `CMD` (R21). -/
  | store (off : Nat) (v : Word) (rest : List HostMove) (r : Reg) (hm : s.moves = .regWrite off v :: rest)
      (hr : regAt off = some r) (hc : r ≠ .cmd) (hf : s.status.fatal = false) :
      StepEffect s (storeReg (s.takeMove rest) r v)
  /-- A write to MEM (R52). -/
  | memWrite (addr : Nat) (bytes : List Byte) (rest : List HostMove) (hm : s.moves = .memWrite addr bytes :: rest)
      (hf : s.status.fatal = false) (hin : 1 ≤ bytes.length ∧ addr + bytes.length ≤ s.mem.size) :
      StepEffect s { s.takeMove rest with mem := s.mem.write addr bytes.length bytes }
  /-- An illegal command word (R73). -/
  | illegal (w : Word) (rest : List HostMove) (hm : s.moves = .regWrite 0 w :: rest) (hw : ∀ i, w ≠ word i)
      (hf : s.status.fatal = false) : StepEffect s ((s.takeMove rest).raiseErr .illegalCmd)
  /-- A command (R70). -/
  | command (i : Instr) (rest : List HostMove) (hm : s.moves = .regWrite 0 (word i) :: rest)
      (hf : s.status.fatal = false) : StepEffect s ((s.takeMove rest).finish (endingOf i (s.takeMove rest)))

/-- The effect of a write to a register or to `CMD`. -/
theorem stepEffect_of_regWrite {off : Nat} {v : Word} {rest : List HostMove} (hm : s.moves = .regWrite off v :: rest)
    (h : hostRegWrite off v (s.takeMove rest) = .next t) : StepEffect s t := by
  rcases hostRegWrite_cases h with ⟨rfl, hc⟩ | ⟨r, hr, hcmd, rfl⟩
  · rcases cmdWrite_cases hc with ⟨-, rfl⟩ | ⟨hf, hw, rfl⟩ | ⟨hf, i, rfl, rfl⟩
    · exact .keep rest none
    · exact .illegal v rest hm hw hf
    · exact .command i rest hm hf
  · split
    · exact .keep rest none
    · rename_i hf
      exact .store off v rest r hm hr hcmd (Bool.eq_false_iff.mpr hf)

/-- A step with a next state has one of these effects. -/
theorem stepEffect_of_step (h : step s = .next t) : StepEffect s t := by
  rcases step_cases h with ⟨-, rfl⟩ | ⟨m, rest, hm, hmove⟩
  · exact .keep t.moves t.reply
  have hhas := hasMove_of_hostMove hmove
  cases m with
  | reset =>
    cases hmove
    exact .reset rest hm
  | regWrite off v => exact stepEffect_of_regWrite hm hmove
  | regRead off =>
    rw [hostMove, hostRegRead_ok _ (regAt_of hhas)] at hmove
    cases hmove
    exact .keep rest _
  | memRead addr n =>
    rw [hostMove, hostMemRead_ok _ hhas] at hmove
    cases hmove
    exact .keep rest _
  | memWrite addr bytes =>
    rw [hostMove, hostMemWrite_ok _ hhas] at hmove
    cases hmove
    split
    · exact .keep rest none
    · rename_i hf
      exact .memWrite addr bytes rest hm (Bool.eq_false_iff.mpr hf) hhas

/-! ## The invariant -/

/-- A command raises none of the reserved errors 3 and 7, nor the illegal word's 8 (R152, R154): no chain of checks names
one. -/
theorem endingOf_err_code {i : Instr} {c : ErrCode} (h : endingOf i s = .raise (.err c)) :
    c.code.toNat ∈ [1, 2, 4, 5, 6] := by
  cases i
  all_goals
    simp only [endingOf, padEnding_eq, unpadEnding_eq, ecbencEnding, ecbdecEnding, adapter_eq, xencEnding, xdecEnding,
      dispatch_eq] at h
    repeat' split at h
    all_goals cases h <;> decide

/-- The code of a fault is 1 to 4 (R153). -/
theorem Fault.code_bounds (f : Fault) : f.code ≠ 0 ∧ f.code.toNat ≤ 4 := by cases f <;> decide

theorem raiseErr_inv {c : ErrCode} (h : s.inv) (hc : c.code.toNat ∈ [0, 1, 2, 4, 5, 6, 8]) : (s.raiseErr c).inv := by
  obtain ⟨hmem, ⟨-, hfatal, hfcode⟩, -⟩ := h
  exact ⟨hmem, ⟨hc, hfatal, hfcode⟩, by simp⟩

theorem raiseFatal_inv {f : Fault} (h : s.inv) : (s.raiseFatal f).inv := by
  obtain ⟨hmem, ⟨herr, -, -⟩, hrlen⟩ := h
  obtain ⟨hne, hle⟩ := f.code_bounds
  exact ⟨hmem, ⟨herr, ⟨nofun, fun h => absurd h hne⟩, hle⟩, hrlen⟩

/-- `Done` keeps the invariant where its result length and its store stay inside MEM (R56). -/
theorem done_inv {n : Nat} {st : Option Store} (h : s.inv) (hn : n ≤ s.mem.size)
    (hst : ∀ x ∈ st, x.addr + x.len ≤ s.mem.size) : (s.done n st).inv := by
  obtain ⟨hmem, ⟨-, hfatal, hfcode⟩, -⟩ := h
  refine ⟨Memory.apply_wf hmem st hst, ⟨by simp, hfatal, hfcode⟩, ?_⟩
  rw [State.done_rlen, State.done_mem, Memory.apply_size, BitVec.toNat_ofNat]
  exact (Nat.mod_le _ _).trans hn

/-- Every command keeps the invariant. -/
theorem finish_endingOf_inv (i : Instr) (h : s.inv) : (s.finish (endingOf i s)).inv := by
  rcases endingOf_cases i s with ⟨r, hr⟩ | ⟨-, hsrc, -, n, hn, he⟩ | ⟨-, -, hdst, -, n, data, hn, he⟩
  · rw [hr]
    cases r with
    | err c =>
      have hc := endingOf_err_code hr
      exact raiseErr_inv h (by simp only [List.mem_cons] at hc ⊢; tauto)
    | fatal f => exact raiseFatal_inv h
  · rw [he]
    exact done_inv h (by omega) (by simp)
  · rw [he]
    refine done_inv h (by omega) fun x hx => ?_
    cases hx
    show s.dst.toNat + n ≤ s.mem.size
    omega

/-- Power-up on a MEM in canonical form meets the invariant (R45). -/
theorem powerUp_inv {mem : Memory} (h : mem.wf) : (State.powerUp mem).inv :=
  ⟨h, (by decide : Status.ok ⟨0, 0, false⟩), Nat.zero_le _⟩

/-! ## The register map -/

/-- The reserved registers stand from 0x54 on (R20, R39). -/
theorem le_offset_of_reserved {off : Nat} (h : regAt off = some .reserved) : 0x54 ≤ off := by
  obtain ⟨k, rfl, hk⟩ := offset_eq_slot (regAt_isSome.mp (Option.isSome_of_eq_some h))
  rw [regAt_of (by omega), Nat.mul_div_cancel_left k (by omega)] at h
  have hslots : ∀ k : Fin 64, slotReg k.val = .reserved → 21 ≤ k.val := by decide
  have hle : 21 ≤ k := hslots ⟨k, hk⟩ (Option.some.inj h)
  omega

/-- The vocabulary's number at the offset of a key register. -/
theorem valueAt_key (s : State) {i : Nat} (h : i < 8) : valueAt s (0x10 + 4 * i) = s.key[i].toNat := by
  have hdiv : (0x10 + 4 * i - 0x10) / 4 = i := by omega
  rw [valueAt, if_neg (by omega), if_neg (by omega), if_neg (by omega), if_pos (by omega), hdiv]
  simp [h]

/-- The vocabulary's number at the offset of an IV register. -/
theorem valueAt_iv (s : State) {i : Nat} (h : i < 4) : valueAt s (0x30 + 4 * i) = s.iv[i].toNat := by
  have hdiv : (0x30 + 4 * i - 0x30) / 4 = i := by omega
  rw [valueAt, if_neg (by omega), if_neg (by omega), if_neg (by omega), if_neg (by omega), if_pos (by omega), hdiv]
  simp [h]

/-- R20's table in the vocabulary gives, at every offset the host can name, what the register there reads as. -/
theorem valueAt_eq_readReg (s : State) {off : Nat} {r : Reg} (h : regAt off = some r) :
    valueAt s off = (readReg s r).toNat := by
  by_cases hr : r = .reserved
  · subst hr
    have := le_offset_of_reserved h
    simp only [valueAt, readReg]
    repeat' rw [if_neg (by omega)]
    rfl
  rw [← offset_of_regAt h hr]
  cases r with
  | reserved => exact absurd rfl hr
  | status => exact (Status.toWord_toNat _).symm
  | cfg => exact (Cfg.toWord_toNat _).symm
  | keylen => exact (readReg_keylen_toNat s).symm
  | key i => exact valueAt_key s i.isLt
  | iv i => exact valueAt_iv s i.isLt
  | cmd | src | len | dst | dcap | rlen => rfl

/-- The vocabulary's read-write offsets are the registers a write is stored in (R20, R27, R30). -/
theorem storedAt_eq_writtenNat {off : Nat} {r : Reg} (v : Word) (h : regAt off = some r) :
    storedAt off v = writtenNat r v := by
  by_cases hr : r = .reserved
  · subst hr
    have := le_offset_of_reserved h
    simp only [storedAt, writtenNat]
    repeat' rw [if_neg (by omega)]
  rw [← offset_of_regAt h hr]
  cases r with
  | reserved => exact absurd rfl hr
  | key i | iv i =>
    have hi := i.isLt
    rw [storedAt, writtenNat, Reg.offset, if_neg (by omega), if_neg (by omega), if_pos (by omega)]
  | cmd | status | cfg | keylen | src | len | dst | dcap | rlen => rfl

/-- Only the reserved register stands at more than one offset (R20, R39). -/
theorem offset_inj {off off' : Nat} {r : Reg} (h : regAt off = some r) (h' : regAt off' = some r)
    (hr : r ≠ .reserved) : off = off' := (offset_of_regAt h hr).symm.trans (offset_of_regAt h' hr)

/-- What the host reads at every offset after a write to the register at one of them (R21, R27, R30). -/
theorem valueAt_storeReg (s : State) {off off' : Nat} {r : Reg} (v : Word) (h : regAt off = some r)
    (ho : Offset off') : valueAt (storeReg s r v) off' =
      if off' = off then (storedAt off v).getD (valueAt s off) else valueAt s off' := by
  have h' := regAt_of ho
  rw [valueAt_eq_readReg _ h', readReg_storeReg, storedAt_eq_writtenNat v h, valueAt_eq_readReg s h,
    valueAt_eq_readReg s h']
  by_cases hoff : off' = off
  · subst hoff
    rw [if_pos rfl, if_pos (Option.some.inj (h'.symm.trans h))]
  · rw [if_neg hoff]
    split
    · rename_i hreg
      rw [hreg] at h' ⊢
      have hres : r = .reserved := by_contra fun hr => hoff (offset_inj h' h hr)
      subst hres
      rfl
    · rfl

/-- A register other than `STATUS` and `RLEN` reads after any ending what it read before (R155 to R157). -/
theorem valueAt_finish (s : State) (e : Ending) {off : Nat} (hs : off ≠ 0x04) (hr : off ≠ 0x50) :
    valueAt (s.finish e) off = valueAt s off := by
  rw [finish_frame]
  simp only [valueAt, if_neg hs, if_neg hr]

/-- After power-up `CFG` reads 0x00000101 and every other offset 0 (R45). -/
theorem valueAt_powerUp (mem : Memory) (off : Nat) :
    valueAt (State.powerUp mem) off = if off = 0x08 then 0x00000101 else 0 := by
  have hbank (n i : Nat) : (Vector.replicate n (0 : Word)).toList.getD i 0 = 0 := by simp
  by_cases h : off = 0x08
  · subst h
    rfl
  · rw [if_neg h]
    simp only [valueAt, State.powerUp, if_neg h, hbank]
    simp

/-! ## The obligations of 10_state.md -/

/-- Settles O42: each effect a step can have keeps the invariant. -/
theorem stepKeepsTheInvariant : Obligations.StepKeepsTheInvariant := by
  intro s t h hstep
  have htake (rest : List HostMove) : (s.takeMove rest).inv := h
  cases stepEffect_of_step hstep with
  | keep rest reply => exact h
  | reset rest hm => exact powerUp_inv h.1
  | store off v rest r hm hr hcmd hf => simpa [State.inv] using h
  | memWrite addr bytes rest hm hf hin =>
    obtain ⟨hmem, hstatus, hrlen⟩ := h
    exact ⟨Memory.write_wf hmem _ _ _ hin.2, hstatus, by simpa using hrlen⟩
  | illegal w rest hm hw hf => exact raiseErr_inv (htake rest) (by decide)
  | command i rest hm hf => exact finish_endingOf_inv i (htake rest)

/-- Settles O43: of the effects of a step only a command sets `FATAL`, and only `Reset` clears it. -/
theorem fatalIsSticky : Obligations.FatalIsSticky := by
  intro s t hstep
  cases stepEffect_of_step hstep with
  | keep rest reply => simp +contextual
  | reset rest hm => simp [hm]
  | store off v rest r hm hr hcmd hf => simp +contextual
  | memWrite addr bytes rest hm hf hin => simp [hf]
  | illegal w rest hm hw hf => simp [hf]
  | command i rest hm hf => simp [hf, hm]

/-- Settles O13: a step is its move, which is made where the host has it and refused where it has not. -/
theorem refusedExactlyWhenNotAMove : Obligations.RefusedExactlyWhenNotAMove := by
  intro s m rest hm
  rw [step_move hm]
  by_cases h : HasMove s m
  · obtain ⟨t, ht⟩ : ∃ t, hostMove m (s.takeMove rest) = .next t := hostMove_next (by cases m <;> exact h)
    simp [h, ht]
  · obtain ⟨r, hr⟩ : ∃ r, hostMove m (s.takeMove rest) = .refused r := hostMove_refused (by cases m <;> exact h)
    simp [h, hr]

/-- Settles O11: the step answers the register at the offset, whose word is the vocabulary's number. -/
theorem registerReadFollowsTheMap : Obligations.RegisterReadFollowsTheMap := by
  intro s off rest hm ho
  have hr := regAt_of ho
  have hval := valueAt_eq_readReg s hr
  have hread : readReg (s.takeMove rest) (slotReg (off / 4)) = readReg s (slotReg (off / 4)) := by
    cases slotReg (off / 4) <;> rfl
  refine ⟨?_, hval ▸ BitVec.isLt _⟩
  rw [step_move hm, hostMove, hostRegRead_ok _ hr, hread, hval, BitVec.ofNat_toNat, BitVec.setWidth_eq]
  rfl

/-- Settles O12: the step stores in the register at the offset, and the map says what every offset then reads. -/
theorem registerWriteFollowsTheMap : Obligations.RegisterWriteFollowsTheMap := by
  intro s off v rest hm ho hoff hf
  have hr := regAt_of ho
  have hcmd : slotReg (off / 4) ≠ .cmd := fun hc => hoff (offset_of_regAt (hc ▸ hr) (by decide)).symm
  refine ⟨storeReg (s.takeMove rest) (slotReg (off / 4)) v, ?_, by simp, by simp, fun off' ho' => ?_⟩
  · rw [step_move hm, hostMove, hostRegWrite_reg v hr hcmd, State.takeMove_status, hf]
    rfl
  · exact valueAt_storeReg _ v hr ho'

/-- Settles O16: of the effects of a step, only `Reset` and a store at the offset itself can change what it reads. -/
theorem onlyTheHostChangesConfiguration : Obligations.OnlyTheHostChangesConfiguration := by
  intro s t off hstep ho hlo hhi hne
  cases stepEffect_of_step hstep with
  | keep rest reply => exact absurd rfl hne
  | reset rest hm => exact .inr ⟨rest, hm⟩
  | store off' v rest r hm hr hcmd hf =>
    have : off = off' := by
      by_contra hoff
      exact hne ((valueAt_storeReg _ v hr ho).trans (if_neg hoff))
    exact .inl ⟨v, rest, this ▸ hm⟩
  | memWrite addr bytes rest hm hf hin => exact absurd rfl hne
  | illegal w rest hm hw hf =>
    exact absurd (valueAt_finish (s.takeMove rest) (.raise (.err .illegalCmd)) (by omega) (by omega)) hne
  | command i rest hm hf => exact absurd (valueAt_finish (s.takeMove rest) _ (by omega) (by omega)) hne

/-- Settles O20: the key is the bytes of the key bank in order, and the host reads the bank at 0x10 on. -/
theorem keyIsPackedLittleEndian : Obligations.KeyIsPackedLittleEndian := by
  intro s hk
  refine ⟨keyBytes_length s, fun j hj => ⟨bankByte s.key.toList j, by simp [State.keyBytes, hj], ?_⟩⟩
  have hi : j / 4 < 8 := by omega
  rw [bankByte_toNat, valueAt_key s hi]
  simp [hi]

/-- Settles O21: the IV is the bytes of the IV bank in order, and the host reads the bank at 0x30 on. -/
theorem ivIsPackedLittleEndian : Obligations.IvIsPackedLittleEndian := by
  intro s j
  have hi : j.val / 4 < 4 := by omega
  have hbyte : s.ivBlock[j] = bankByte s.iv.toList j.val := by simp [State.ivBlock]
  rw [hbyte, bankByte_toNat, valueAt_iv s hi]
  simp [hi]

/-- Settles O4: a write to `CMD` is the execution of the command its word decodes to. -/
theorem stepRunsDecodedCommand : Obligations.StepRunsDecodedCommand := by
  refine ⟨fun s w rest i hm hd => ?_, fun s i => ⟨?_, ?_⟩, fun s => step_idle⟩
  · rw [step_move hm, hostMove, hostRegWrite_cmd, cmdWrite_ok hd]
    rfl
  · have hm : (s.withFetchWord 32 (word i).toNat).moves = .regWrite 0 (word i) :: s.moves := by
      rw [State.withFetchWord, tableWord_toNat]
      rfl
    rw [step_move hm, hostMove, hostRegWrite_cmd, cmdWrite_ok (decode_word i)]
    rfl
  · rw [decodeTableWord, tableWord_toNat, decode_word]

/-- Settles O19: `State.reset` is power-up on a MEM in canonical form. -/
theorem resetMeetsTheInvariant : Obligations.ResetMeetsTheInvariant :=
  ⟨powerUp_inv Memory.reset_wf, valueAt_powerUp _, rfl, fun _ => powerUp_inv⟩

end Machine
end Sys2Proof

/-! PROOFS. MEM and the buffers (20_memory.md): what the host's accesses to MEM do, how an ending is told from the state
it leaves, where a command reads and writes, and the stride datapath; then the obligations of that file. -/

namespace Sys2Proof.Machine

open Claim

variable {s : State}

/-! ## The host's accesses to MEM -/

/-- A step that makes a MEM read the host has (R52). -/
theorem step_memRead {addr n : Nat} {rest : List HostMove} (hm : s.moves = .memRead addr n :: rest)
    (h : 1 ≤ n ∧ addr + n ≤ s.mem.size) :
    step s = .next { s with moves := rest, reply := some (.bytes (s.mem.read addr n)) } := by
  rw [step_move hm, hostMove, hostMemRead_ok (s.takeMove rest) h]
  rfl

/-- A step that makes a MEM write the host has, with `FATAL = 0` (R52). -/
theorem step_memWrite {addr : Nat} {bytes : List Byte} {rest : List HostMove}
    (hm : s.moves = .memWrite addr bytes :: rest) (h : 1 ≤ bytes.length ∧ addr + bytes.length ≤ s.mem.size)
    (hf : s.status.fatal = false) :
    step s = .next { s with moves := rest, reply := none, mem := s.mem.write addr bytes.length bytes } := by
  rw [step_move hm, hostMove, hostMemWrite_ok (s.takeMove rest) h, State.takeMove_status, hf]
  rfl

/-- In the frozen state a MEM write changes nothing of the block (R158). -/
theorem step_memWrite_frozen {addr : Nat} {bytes : List Byte} {rest : List HostMove}
    (hm : s.moves = .memWrite addr bytes :: rest) (h : 1 ≤ bytes.length ∧ addr + bytes.length ≤ s.mem.size)
    (hf : s.status.fatal = true) : step s = .next { s with moves := rest, reply := none } := by
  rw [step_move hm, hostMove, hostMemWrite_ok (s.takeMove rest) h, State.takeMove_status, hf]
  rfl

/-- A step that makes a MEM read the host does not have (R52, log entry 9). -/
theorem step_memRead_refused {addr n : Nat} {rest : List HostMove} (hm : s.moves = .memRead addr n :: rest)
    (h : ¬(1 ≤ n ∧ addr + n ≤ s.mem.size)) : step s = .refused .memAccess := by
  rw [step_move hm]
  exact if_neg (h ∘ memAccessOk_iff.mp)

/-- A step that makes a MEM write the host does not have (R52, log entry 9). -/
theorem step_memWrite_refused {addr : Nat} {bytes : List Byte} {rest : List HostMove}
    (hm : s.moves = .memWrite addr bytes :: rest) (h : ¬(1 ≤ bytes.length ∧ addr + bytes.length ≤ s.mem.size)) :
    step s = .refused .memAccess := by
  rw [step_move hm]
  exact if_neg (h ∘ memAccessOk_iff.mp)

/-- A step that makes a register read the host has (R21). -/
theorem step_regRead {off : Nat} {rest : List HostMove} (hm : s.moves = .regRead off :: rest) (ho : Offset off) :
    step s = .next { s with moves := rest, reply := some (.word (BitVec.ofNat 32 (valueAt s off))) } :=
  (registerReadFollowsTheMap s off rest hm ho).1

/-- A run of a machine takes its first step and goes on. -/
theorem coreRun_succ {M : Host.Core} {k : Nat} {a b : M.State} (h : M.step a = .next b) :
    M.run (k + 1) a = M.run k b := by
  rw [Host.Core.run, h]

/-- The same of the block. -/
theorem run_succ {k : Nat} {a b : State} (h : step a = .next b) : core.run (k + 1) a = core.run k b :=
  coreRun_succ (M := core) h

/-! ## The ending, told from the state it leaves -/

/-- No recoverable error has the number 0 (R150). -/
theorem ErrCode.code_ne_zero (c : ErrCode) : c.code ≠ 0 := by cases c <;> decide

/-- Two faults with one number are one fault (R153). -/
theorem Fault.code_inj {f g : Fault} (h : f.code.toNat = g.code.toNat) : f = g := by
  revert h
  cases f <;> cases g <;> decide

theorem outOf_done (hf : s.status.fatal = false) (n : Nat) (st : Option Store) : outOf (s.done n st) = .done := by
  simp [outOf, hf]

theorem outOf_raiseErr (hf : s.status.fatal = false) (c : ErrCode) :
    outOf (s.raiseErr c) = .err c.code.toNat := by
  rw [outOf, State.raiseErr_status, Status.afterErr_fatal, hf, Status.afterErr_err, if_neg c.code_ne_zero]
  rfl

theorem outOf_raiseFatal (f : Fault) : outOf (s.raiseFatal f) = .fatal f.code.toNat := by simp [outOf]

/-- A command has ended by `Done` exactly when its ending is a `Done`. -/
theorem outOf_finish_eq_done (hf : s.status.fatal = false) {e : Ending} :
    outOf (s.finish e) = .done ↔ ∃ n st, e = .done n st := by
  cases e with
  | done n st => simp [outOf_done hf]
  | raise r =>
    cases r with
    | err c => simp [outOf_raiseErr hf]
    | fatal f => simp [outOf_raiseFatal]

/-- What the ending of a command that has ended by `Done` is: `UNPAD` stores nothing, any other command stores its
result at `DST` (R50, R51). -/
theorem endingOf_cases_of_done {i : Instr} (hf : s.status.fatal = false)
    (hdone : outOf (s.finish (endingOf i s)) = .done) :
    (i = .unpad ∧ ∃ n, endingOf i s = .done n none) ∨
    (i ≠ .unpad ∧ ∃ n data, n ≤ s.dcap.toNat ∧ endingOf i s = .done n (some ⟨s.dst.toNat, n, data⟩)) := by
  obtain ⟨k, st, hend⟩ := (outOf_finish_eq_done hf).mp hdone
  rcases endingOf_cases i s with ⟨r, he⟩ | ⟨hi, -, -, n, -, he⟩ | ⟨hi, -, -, -, hstore⟩
  · cases he.symm.trans hend
  · exact .inl ⟨hi, n, he⟩
  · exact .inr ⟨hi, hstore⟩

/-- A command has ended by a fault's number exactly when its ending raises that fault. -/
theorem outOf_finish_eq_fatal (hf : s.status.fatal = false) {e : Ending} {f : Fault} :
    outOf (s.finish e) = .fatal f.code.toNat ↔ e = .raise (.fatal f) := by
  cases e with
  | done n st => simp [outOf_done hf]
  | raise r =>
    cases r with
    | err c => simp [outOf_raiseErr hf]
    | fatal g =>
      rw [finish_fatal, outOf_raiseFatal]
      refine ⟨fun h => ?_, fun h => ?_⟩
      · rw [Fault.code_inj (Out.fatal.inj h)]
      · cases h
        rfl

/-! ## Which checks raise the geometry faults -/

/-- A check list raises what its first check raises, or, where that passes, what the rest raises. -/
theorem checked_cons_eq_raise {c : Option Raise} {cs : List (Option Raise)} {e : Ending} {r : Raise} :
    checked (c :: cs) e = .raise r ↔ c = some r ∨ (c = none ∧ checked cs e = .raise r) := by
  cases c <;> simp

/-- What comes after a command's geometry checks: an ending that raises neither `F_BOUNDS` nor `F_OVERLAP`. -/
def Ending.PastGeometry (e : Ending) : Prop := e ≠ .raise (.fatal .bounds) ∧ e ≠ .raise (.fatal .overlap)

theorem pastGeometry_done (n : Nat) (st : Option Store) : (Ending.done n st).PastGeometry := ⟨nofun, nofun⟩

/-- Checks that raise no geometry fault may stand in front. -/
theorem Ending.PastGeometry.checked {cs : List (Option Raise)} {e : Ending} (he : e.PastGeometry)
    (hb : some (.fatal .bounds) ∉ cs) (ho : some (.fatal .overlap) ∉ cs) : (checked cs e).PastGeometry := by
  rcases checked_cases cs e with ⟨r, hr, hraise⟩ | ⟨-, hpass⟩
  · rw [hraise]
    refine ⟨?_, ?_⟩
    · rintro ⟨⟩
      exact hb hr
    · rintro ⟨⟩
      exact ho hr
  · rwa [hpass]

/-- Which geometry fault `GeometryCheck1` raises (R53, R55). -/
theorem geometryCheck1_faults {e : Ending} (he : e.PastGeometry) :
    (checked (geometryCheck1 s) e = .raise (.fatal .bounds) ↔ ¬s.sourceFits) ∧
    checked (geometryCheck1 s) e ≠ .raise (.fatal .overlap) := by
  obtain ⟨hb, ho⟩ := he
  simp [geometryCheck1, checked_cons_eq_raise, boundsCheck_eq_some, hb, ho]

/-- Which geometry fault `GeometryCheck2` raises (R53 to R55). -/
theorem geometryCheck2_faults {e : Ending} (he : e.PastGeometry) :
    (checked (geometryCheck2 s) e = .raise (.fatal .bounds) ↔ ¬s.sourceFits ∨ ¬s.destFits) ∧
    (checked (geometryCheck2 s) e = .raise (.fatal .overlap) ↔ s.sourceFits ∧ s.destFits ∧ ¬s.overlapOK) := by
  obtain ⟨hb, ho⟩ := he
  constructor
  · simp only [geometryCheck2, checked_cons_eq_raise, boundsCheck_eq_some, boundsCheck_eq_none, overlapCheck_eq_some,
      checked_nil, hb, State.source_addr, State.source_len, State.dest_addr, State.dest_len, Raise.fatal.injEq,
      reduceCtorEq, true_and, false_and, and_false, or_false]
    tauto
  · simp [geometryCheck2, checked_cons_eq_raise, boundsCheck_eq_some, boundsCheck_eq_none, overlapCheck_eq_some, ho]

/-- What the adapter's commands do after their geometry checks raises no geometry fault (R112, R113). -/
theorem adapter_geometry (f : List Byte → List Byte) :
    ∃ e : Ending, e.PastGeometry ∧ checked (adapterChecks s) (transformEnding f s) = checked (geometryCheck2 s) e := by
  refine ⟨_, ?_, by rw [adapterChecks, List.append_assoc, checked_append]⟩
  apply Ending.PastGeometry.checked (pastGeometry_done _ _) <;>
    simp [adapterCheck, eq_comm, keyCheck_eq_some, srcLenCheck_eq_some, dstCapCheck_eq_some]

/-- What the dispatcher's commands do after their geometry checks raises no geometry fault (R127). -/
theorem dispatch_geometry (f : State → Mode → List Byte → List Byte) :
    ∃ e : Ending, e.PastGeometry ∧ dispatchEnding f s = checked (geometryCheck2 s) e := by
  refine ⟨_, ?_, by rw [dispatchEnding, checked_append]⟩
  apply Ending.PastGeometry.checked
  · split
    · exact ⟨nofun, nofun⟩
    · apply Ending.PastGeometry.checked (pastGeometry_done _ _) <;> simp [eq_comm, dstCapCheck_eq_some]
  all_goals simp [eq_comm, keyCheck_eq_some, lengthCheck_eq_some]

/-- Every command but `UNPAD` begins with `GeometryCheck2` (R55), and no later check raises its faults. -/
theorem endingOf_geometry2 {i : Instr} (hi : i ≠ .unpad) (s : State) :
    ∃ e : Ending, e.PastGeometry ∧ endingOf i s = checked (geometryCheck2 s) e := by
  cases i with
  | unpad => exact absurd rfl hi
  | pad =>
    refine ⟨_, ?_, by rw [endingOf, padEnding, checked_append]⟩
    apply Ending.PastGeometry.checked (pastGeometry_done _ _) <;>
      simp [eq_comm, schemeCheck_eq_some, dstCapCheck_eq_some]
  | ecbenc => exact adapter_geometry _
  | ecbdec => exact adapter_geometry _
  | xenc => exact dispatch_geometry _
  | xdec => exact dispatch_geometry _

/-- `UNPAD` begins with `GeometryCheck1` (R55), and no later check raises a geometry fault. -/
theorem unpad_geometry1 (s : State) :
    ∃ e : Ending, e.PastGeometry ∧ endingOf .unpad s = checked (geometryCheck1 s) e := by
  refine ⟨_, ?_, by rw [endingOf, unpadEnding, checked_append]⟩
  apply Ending.PastGeometry.checked
  · unfold unpadResult
    dsimp only
    repeat' split
    all_goals exact ⟨nofun, nofun⟩
  all_goals simp [eq_comm, schemeCheck_eq_some]

/-! ## Where a command reads and writes -/

/-- A `raise` leaves MEM as it was (R156, R157). -/
@[simp] theorem finish_raise_mem (s : State) (r : Raise) : (s.finish (.raise r)).mem = s.mem := by cases r <;> rfl

/-- `STATUS` after an ending does not depend on MEM, nor does `RLEN`. -/
theorem finish_withMem (s : State) (m : Memory) (e : Ending) :
    ({ s with mem := m }.finish e).status = (s.finish e).status ∧
      ({ s with mem := m }.finish e).rlen = (s.finish e).rlen := by
  cases e with
  | done n st => exact ⟨rfl, rfl⟩
  | raise r => cases r <;> exact ⟨rfl, rfl⟩

/-- The ending of a command depends on MEM through its size and the bytes of the source buffer, `UNPAD`'s through the
last of them alone (R50). -/
theorem endingOf_withMem (i : Instr) (m : Memory) (hsize : m.size = s.mem.size)
    (hsrc : ∀ k, k < s.len.toNat → (i = .unpad → k + 1 = s.len.toNat) →
      m.byteAt (s.src.toNat + k) = s.mem.byteAt (s.src.toNat + k)) :
    endingOf i { s with mem := m } = endingOf i s := by
  have hread (hi : i ≠ .unpad) : m.read s.src.toNat s.len.toNat = s.mem.read s.src.toNat s.len.toNat :=
    Memory.read_congr _ _ _ _ _ fun k hk => hsrc k hk fun h => absurd h hi
  obtain ⟨size, cells⟩ := m
  obtain rfl : size = s.mem.size := hsize
  cases i with
  | unpad =>
    have hresult : unpadResult { s with mem := ⟨s.mem.size, cells⟩ } = unpadResult s := by
      by_cases h0 : s.len.toNat = 0
      · exact (if_pos h0).trans (if_pos h0).symm
      · have hlast := hsrc (s.len.toNat - 1) (by omega) fun _ => by omega
        rw [← Nat.add_sub_assoc (by omega)] at hlast
        simp only [unpadResult, State.source_addr, State.source_len, hlast]
        rfl
    exact congrArg (checked (geometryCheck1 s ++ [schemeCheck s])) hresult
  | pad =>
    simp only [endingOf, padEnding_eq, hread (by decide)]
    rfl
  | ecbenc =>
    simp only [endingOf, ecbencEnding, adapter_eq, hread (by decide)]
    rfl
  | ecbdec =>
    simp only [endingOf, ecbdecEnding, adapter_eq, hread (by decide)]
    rfl
  | xenc =>
    have hf (m : Memory) (mode : Mode) : encTransform { s with mem := m } mode = encTransform s mode :=
      encTransform_congr mode rfl rfl rfl
    simp only [endingOf, xencEnding, dispatch_eq, hread (by decide), hf]
    rfl
  | xdec =>
    have hf (m : Memory) (mode : Mode) : decTransform { s with mem := m } mode = decTransform s mode :=
      decTransform_congr mode rfl rfl rfl
    simp only [endingOf, xdecEnding, dispatch_eq, hread (by decide), hf]
    rfl

/-- What a command writes of MEM is inside its destination buffer, and `UNPAD` writes nothing (R50). -/
theorem sameOutside_finish (i : Instr) :
    SameOutside s (s.finish (endingOf i s)) s.dst.toNat (if i = .unpad then 0 else s.dcap.toNat) := by
  intro a ha
  rcases endingOf_cases i s with ⟨r, he⟩ | ⟨-, -, -, n, -, he⟩ | ⟨hi, -, -, -, n, data, hn, he⟩
  · rw [he, finish_raise_mem]
  · rw [he]
    rfl
  · rw [if_neg hi] at ha
    have hout : a < s.dst.toNat ∨ s.dst.toNat + n ≤ a := by omega
    rw [he]
    exact Memory.byteAt_write_out _ _ _ _ _ hout

/-! ## The stride datapath -/

/-- Only the bytes stored of a sequence matter. -/
theorem Memory.write_take (m : Memory) (addr n : Nat) (v : List Byte) :
    m.write addr n (v.take n) = m.write addr n v := by
  apply Memory.write_congr
  intro i hi
  simp [List.getD_eq_getElem?_getD, hi]

/-- After `n` strides the datapath has written to the destination the first `n` strides of the transform of the source
as it was at the start: no stride still to be loaded has been written over, for buffers in place or apart (R54, R57). -/
theorem Datapath.run_mem (f : Block → Block) (d : Datapath) {src dst len n : Nat}
    (hapart : ApartAt src len dst len) (hn : 16 * n ≤ len) :
    (Datapath.run f src dst n d).mem = d.mem.write dst (16 * n) (ecb f (d.mem.read src len)) := by
  induction n with
  | zero => rfl
  | succ n ih =>
    have hstride : ((d.mem.write dst (16 * n) (ecb f (d.mem.read src len))).read (src + 16 * n) 16) =
        ((d.mem.read src len).drop (16 * n)).take 16 := by
      rw [Memory.read_write_out _ _ _ _ _ _ (by omega), Memory.read_drop _ _ _ _ (by omega),
        Memory.read_take _ _ _ _ (by omega)]
    rw [Datapath.run_succ_mem, ih (by omega), hstride,
      ← ecb_stride f _ n (by rw [Memory.read_length]; omega), Memory.write_take, ← Memory.write_add]
    rfl

/-! ## The obligations of 20_memory.md -/

/-- Settles O7: an ending by `Done` is `State.done` with at most one store, of `RLEN` bytes at `DST`. -/
theorem doneWritesOnlyItsResult : Obligations.DoneWritesOnlyItsResult := by
  intro i s t hf ht hdone
  obtain rfl := eq_finish_of_exec hf ht
  rcases endingOf_cases_of_done hf hdone with ⟨-, n, he⟩ | ⟨-, n, data, hn, he⟩
  · rw [he]
    exact ⟨⟨rfl, rfl, rfl⟩, fun a _ => rfl⟩
  · have hrlen : (BitVec.ofNat 32 n).toNat = n := by
      rw [BitVec.toNat_ofNat, Nat.mod_eq_of_lt (by omega)]
    rw [he, finish_done, State.done_rlen, hrlen]
    exact ⟨⟨rfl, hrlen, Memory.write_size _ _ _ _⟩, fun a ha => Memory.byteAt_write_out _ _ _ _ _ ha⟩

/-- Settles O14: a MEM move the host has is `Memory.read` or `Memory.write`, and any other is refused. -/
theorem hostMemMoves : Obligations.HostMemMoves := by
  refine ⟨fun s addr n rest hm h1 h2 => ?_, fun s addr bytes rest hm h1 h2 => ?_, fun s addr n rest hm h => ?_,
    fun s addr bytes rest hm h => ?_⟩
  · refine ⟨_, step_memRead hm ⟨h1, h2⟩, Memory.read_length _ _ _, fun k hk => ?_⟩
    rw [List.getElem?_eq_getElem (by rwa [Memory.read_length]), Memory.getElem_read]
  · cases hf : s.status.fatal with
    | true => exact ⟨_, step_memWrite_frozen hm ⟨h1, h2⟩ hf, rfl, rfl, fun _ => rfl, nofun⟩
    | false =>
      refine ⟨_, step_memWrite hm ⟨h1, h2⟩ hf, rfl, Memory.write_size _ _ _ _, nofun, fun _ => ⟨?_, ?_⟩⟩
      · exact fun a ha => Memory.byteAt_write_out _ _ _ _ _ ha
      · intro k hk
        rw [Memory.byteAt_write_in _ _ _ _ _ hk, List.getD_eq_getElem _ _ hk, List.getElem?_eq_getElem hk]
  · exact step_memRead_refused hm (by omega)
  · refine step_memWrite_refused hm fun ⟨h1, h2⟩ => ?_
    rcases h with rfl | h
    · exact absurd h1 (by decide)
    · omega

/-- Settles O15: the write leaves the bytes in MEM, the two reads between leave MEM as it is, and the last read answers
what is there. -/
theorem readSeesLatestWrite : Obligations.ReadSeesLatestWrite := by
  intro s addr off a n bytes rest hf h1 h2 hn ha ho hm
  refine ⟨_, Eq.trans (run_succ (step_memWrite hm ⟨h1, h2⟩ hf)) <| Eq.trans (run_succ (step_regRead rfl ho)) <|
    Eq.trans (run_succ (step_memRead rfl ⟨hn, ?_⟩)) (run_succ (step_memRead rfl ⟨h1, ?_⟩)), ?_⟩
  · simpa using ha
  · simpa using h2
  · exact congrArg (fun b => some (Reply.bytes b)) (Memory.read_write _ _ _ _ rfl)

/-- Settles O34: the command stores the transform of the source at once, the datapath the same bytes stride by
stride. -/
theorem strideDatapathIsTheSnapshot : Obligations.StrideDatapathIsTheSnapshot := by
  intro s i f sblk dblk hi hf ⟨hsrc, hdst, hapart⟩ hkey hlen hcap
  have hend : endingOf i s = .done s.len.toNat
      (some ⟨s.dst.toNat, s.len.toNat, ecb (f s.keyBytes) (s.mem.read s.src.toNat s.len.toNat)⟩) := by
    rcases hi with ⟨rfl, rfl⟩ | ⟨rfl, rfl⟩ <;> exact adapter_done _ hsrc hdst hapart hkey hlen hcap
  have hstrides : 16 * (s.len.toNat / 16) = s.len.toNat := by omega
  refine ⟨_, exec_done hf hend, ?_⟩
  rw [Datapath.run_mem (len := s.len.toNat) _ _ (by omega) hstrides.le, hstrides]
  rfl

/-- Settles O40: two such runs have one ending, which stores inside the destination buffer. -/
theorem commandsStayInTheirBuffers : Obligations.CommandsStayInTheirBuffers := by
  intro i s t t' mem' hf hsize hsrc ht ht'
  obtain rfl := eq_finish_of_exec hf ht
  obtain rfl := eq_finish_of_exec (s := { s with mem := mem' }) hf ht'
  rw [endingOf_withMem i mem' hsize hsrc]
  obtain ⟨hstatus, hrlen⟩ := finish_withMem s mem' (endingOf i s)
  refine ⟨hstatus.symm, hrlen.symm, fun hdone hi k hk => ?_, sameOutside_finish i⟩
  rcases endingOf_cases_of_done hf hdone with ⟨hunpad, -⟩ | ⟨-, n, data, hn, he⟩
  · exact absurd hunpad hi
  · rw [he] at hk ⊢
    have hkn : k < n := hk.trans_le (by rw [finish_done, State.done_rlen, BitVec.toNat_ofNat]; exact Nat.mod_le _ _)
    exact (Memory.byteAt_write_in _ _ _ _ _ hkn).trans (Memory.byteAt_write_in _ _ _ _ _ hkn).symm

/-- Settles O41: a command begins with its geometry checks, and nothing after them raises their faults. -/
theorem geometryFaultsExactly : Obligations.GeometryFaultsExactly := by
  intro i s t hf ht
  obtain rfl := eq_finish_of_exec hf ht
  have hbounds := outOf_finish_eq_fatal hf (e := endingOf i s) (f := .bounds)
  have hoverlap := outOf_finish_eq_fatal hf (e := endingOf i s) (f := .overlap)
  refine ⟨hbounds.trans ?_, hoverlap.trans ?_⟩
  all_goals
    by_cases hi : i = .unpad
    · subst hi
      obtain ⟨e, he, hend⟩ := unpad_geometry1 s
      simp [hend, geometryCheck1_faults he]
    · obtain ⟨e, he, hend⟩ := endingOf_geometry2 hi s
      simp [hend, geometryCheck2_faults he, hi]

end Sys2Proof.Machine

/-! PROOFS. The command words (30_encoding.md): decode and encode agree, any other word is an illegal command, and a
command depends on nothing but its operands; then the obligations of that file. -/

namespace Sys2Proof.Machine

open Claim

variable {s s' : State}

/-! ## The command word -/

/-- The encoder gives R71's word. -/
theorem encode_eq_word (i : Instr) : encode i = word i := by cases i <;> decide

/-- R71's word is `UNIT` and `FN` side by side under `ZERO = 0`. -/
theorem word_toNat (i : Instr) : (word i).toNat = 16 * (fields i).1 + (fields i).2 := by cases i <;> decide

/-- A word that is no command's word decodes to no command (R73). -/
theorem decode_error_of_ne_word {w : Word} (hw : ∀ i, w ≠ word i) : ∃ e, decode w = .error e := by
  cases hd : decode w with
  | error e => exact ⟨e, rfl⟩
  | ok i => exact absurd (eq_word_of_decode hd) (hw i)

/-- A write of such a word to `CMD` ends by `ERR_ILLEGAL_CMD` (R73). -/
theorem cmdWrite_of_ne_word {w : Word} (hf : s.status.fatal = false) (hw : ∀ i, w ≠ word i) :
    cmdWrite w s = .next (errState s 8) := by
  obtain ⟨e, he⟩ := decode_error_of_ne_word hw
  rw [cmdWrite_illegal he, illegalCommand, command_run hf]
  rfl

/-! ## The operands of a command -/

/-- A tag that selects a transform of MODEX is 1 to 4 (R28). -/
theorem tag_bounds_of_modex {tag : Byte} {m : ModexMode} (hm : modeOf tag = some (.modex m)) :
    1 ≤ tag.toNat ∧ tag.toNat ≤ 4 := by
  have h4 : tag.toNat ≤ 4 := by
    by_contra h
    cases (modeOf_eq_none.mpr (by omega)).symm.trans hm
  rcases modeOf_cases h4 with ⟨-, h0⟩ | h | h | h | h
  · cases h0.symm.trans hm
  all_goals omega

/-- The transforms of the selected mode read the key, and the IV in modes 1 to 4 (R74, R126). -/
theorem transforms_congr {m : Mode} (hm : modeOf s.cfg.mode = some m) (hkeylen : s.keylen = s'.keylen)
    (hkey : s.key = s'.key) (hiv : 1 ≤ s.cfg.mode.toNat → s.cfg.mode.toNat ≤ 4 → s.iv = s'.iv) :
    encTransform s m = encTransform s' m ∧ decTransform s m = decTransform s' m := by
  cases m with
  | ecb => simp only [encTransform, decTransform, State.keyBytes, hkeylen, hkey, and_self]
  | modex m =>
    obtain ⟨h1, h4⟩ := tag_bounds_of_modex hm
    exact ⟨encTransform_congr _ hkeylen hkey (hiv h1 h4), decTransform_congr _ hkeylen hkey (hiv h1 h4)⟩

/-- `UNPAD` reads `SRC`, `LEN`, `CFG.PADS` and MEM (R74). -/
theorem unpadEnding_congr (hsrc : s.src = s'.src) (hlen : s.len = s'.len) (hmem : s.mem = s'.mem)
    (hpads : s.cfg.pads = s'.cfg.pads) : unpadEnding s = unpadEnding s' := by
  simp only [unpadEnding_eq, State.sourceFits, State.schemeOk, hsrc, hlen, hmem, hpads]

section TwoBuffers

variable (hsrc : s.src = s'.src) (hlen : s.len = s'.len) (hmem : s.mem = s'.mem) (hdst : s.dst = s'.dst)
  (hdcap : s.dcap = s'.dcap)

include hsrc hlen hmem hdst hdcap

/-- The geometry checks read the four buffer registers and the size of MEM (R53 to R55). -/
theorem geometry_congr : (s.sourceFits ↔ s'.sourceFits) ∧ (s.destFits ↔ s'.destFits) ∧
    (s.overlapOK ↔ s'.overlapOK) := by
  simp only [State.sourceFits, State.destFits, State.overlapOK, State.source_addr, State.source_len, State.dest_addr,
    State.dest_len, hsrc, hlen, hmem, hdst, hdcap, and_self]

/-- Beside the buffers `PAD` reads `CFG.PADS` (R74). -/
theorem padEnding_congr (hpads : s.cfg.pads = s'.cfg.pads) : padEnding s = padEnding s' := by
  obtain ⟨hsource, hdest, hoverlap⟩ := geometry_congr hsrc hlen hmem hdst hdcap
  simp only [padEnding_eq, State.schemeOk, hsource, hdest, hoverlap, hsrc, hlen, hmem, hdst, hdcap, hpads]

/-- Beside the buffers the adapter reads the key (R74). -/
theorem adapter_congr (f : List Byte → List Byte → List Byte) (hkeylen : s.keylen = s'.keylen)
    (hkey : s.key = s'.key) :
    checked (adapterChecks s) (transformEnding (f s.keyBytes) s) =
      checked (adapterChecks s') (transformEnding (f s'.keyBytes) s') := by
  obtain ⟨hsource, hdest, hoverlap⟩ := geometry_congr hsrc hlen hmem hdst hdcap
  simp only [adapter_eq, State.keyBytes, hsource, hdest, hoverlap, hsrc, hlen, hmem, hdst, hdcap, hkeylen, hkey]

/-- Beside the buffers and the length of the key the dispatcher reads `CFG.MODE`, and what the transform of the mode it
selects reads (R74). -/
theorem dispatch_congr {f : State → Mode → List Byte → List Byte} (hkeylen : s.keylen = s'.keylen)
    (hmode : s.cfg.mode = s'.cfg.mode) (hf : ∀ m, modeOf s.cfg.mode = some m → f s m = f s' m) :
    dispatchEnding f s = dispatchEnding f s' := by
  obtain ⟨hsource, hdest, hoverlap⟩ := geometry_congr hsrc hlen hmem hdst hdcap
  rw [hmode] at hf
  simp only [dispatch_eq, hsource, hdest, hoverlap, hsrc, hlen, hmem, hdst, hdcap, hkeylen, hmode]
  cases hm : modeOf s'.cfg.mode with
  | none => rfl
  | some m => simp only [hf m hm]

end TwoBuffers

/-- A command's ending depends on MEM and the registers its row of R74's table marks as read. -/
theorem endingOf_congr {i : Instr} (h : AgreeOn i s s') : endingOf i s = endingOf i s' := by
  obtain ⟨hsrc, hlen, hmem, hdest, hpads, hmode, hbank, hiv⟩ := h
  by_cases hi : i = .unpad
  · subst hi
    exact unpadEnding_congr hsrc hlen hmem (hpads (.inr rfl))
  obtain ⟨hdst, hdcap⟩ := hdest hi
  cases i with
  | unpad => exact absurd rfl hi
  | pad => exact padEnding_congr hsrc hlen hmem hdst hdcap (hpads (.inl rfl))
  | ecbenc =>
    obtain ⟨hkeylen, hkey⟩ := hbank nofun hi
    exact adapter_congr hsrc hlen hmem hdst hdcap ecbEnc hkeylen hkey
  | ecbdec =>
    obtain ⟨hkeylen, hkey⟩ := hbank nofun hi
    exact adapter_congr hsrc hlen hmem hdst hdcap ecbDec hkeylen hkey
  | xenc =>
    obtain ⟨hkeylen, hkey⟩ := hbank nofun hi
    exact dispatch_congr hsrc hlen hmem hdst hdcap hkeylen (hmode (.inl rfl)) fun m hm =>
      (transforms_congr hm hkeylen hkey (hiv (.inl rfl))).1
  | xdec =>
    obtain ⟨hkeylen, hkey⟩ := hbank nofun hi
    exact dispatch_congr hsrc hlen hmem hdst hdcap hkeylen (hmode (.inr rfl)) fun m hm =>
      (transforms_congr hm hkeylen hkey (hiv (.inr rfl))).2

/-- One ending leaves two states with the same MEM, neither frozen, alike (R155 to R157). -/
theorem sameEnd_finish (hf : s.status.fatal = false) (hf' : s'.status.fatal = false) (hmem : s.mem = s'.mem)
    (e : Ending) : SameEnd (s.finish e) (s'.finish e) := by
  have hrunning : s.status.fatal = s'.status.fatal := hf.trans hf'.symm
  have hnot : s.status.fatal = true → s.status.fcode = s'.status.fcode := fun h => nomatch hf.symm.trans h
  cases e with
  | done n st => exact ⟨congrArg (·.apply st) hmem, hrunning, fun _ => ⟨rfl, rfl⟩, hnot⟩
  | raise r =>
    cases r with
    | err c => exact ⟨hmem, hrunning, fun _ => ⟨rfl, rfl⟩, hnot⟩
    | fatal f => exact ⟨hmem, rfl, nofun, fun _ => rfl⟩

/-! ## The obligations of 30_encoding.md -/

/-- Settles O2: the decoder takes a word apart into the fields the encoder puts together. -/
theorem commandSelectedByWholeWord : Obligations.CommandSelectedByWholeWord := fun i =>
  ⟨fun _ => ⟨eq_word_of_decode, fun hw => hw ▸ decode_word i⟩, encode_eq_word i, word_toNat i⟩

/-- Settles O39: two such runs have one ending, and it leaves them alike. -/
theorem commandsReadOnlyTheirOperands : Obligations.CommandsReadOnlyTheirOperands := by
  intro i s s' t t' hf hf' hagree ht ht'
  have ⟨_, _, hmem, _⟩ := hagree
  rw [eq_finish_of_exec hf ht, eq_finish_of_exec hf' ht', endingOf_congr hagree]
  exact sameEnd_finish hf hf' hmem _

/-- Settles O1: the ten words are closed terms. -/
theorem specWordsDecode : Obligations.SpecWordsDecode := by
  unfold Obligations.SpecWordsDecode
  decide

/-- Settles O3: the step writes to `CMD` a word that decodes to no command. -/
theorem illegalWordIsRecoverable : Obligations.IllegalWordIsRecoverable := by
  intro s w rest hm hf hw
  rw [step_move hm, hostMove, hostRegWrite_cmd]
  exact cmdWrite_of_ne_word hf hw

end Sys2Proof.Machine

/-! PROOFS. The padding dispatcher (40_padding.md): what `pad` and `unpad` do to a sequence, what `PAD` leaves and that
`UNPAD` is `unpad` of the source buffer, and what both read of `CFG.PADS`; then the obligations of that file. -/

namespace Sys2Proof.Machine

open Claim

variable {s t : State}

/-! ## The pure functions -/

/-- `unpad` undoes `pad` on every sequence but the empty one (R98). -/
theorem unpadBytes_padBytes (data : List Byte) :
    unpadBytes (padBytes data) = if data = [] then none else some data := by
  rw [unpadBytes_of_getLast? (getLast?_padBytes data), padByte_toNat, padBytes_length]
  by_cases h : data = []
  · subst h
    rfl
  · have hpos := List.length_pos_iff.mpr h
    rw [if_neg (by omega), if_neg h, Nat.add_sub_cancel, padBytes, List.take_left]

/-- `unpad` of a non-empty part of MEM is a shorter part from the same address, or fails (R93). -/
theorem unpadBytes_read (m : Memory) (a : Nat) {n : Nat} (h : n ≠ 0) :
    unpadBytes (m.read a n) = if (m.byteAt (a + n - 1)).toNat ≥ n then none
      else some (m.read a (n - (m.byteAt (a + n - 1)).toNat)) := by
  rw [unpadBytes_of_getLast? (getLast?_read m a n h), Memory.read_length, Memory.read_take _ _ _ _ (Nat.sub_le _ _)]

/-! ## `PAD` -/

/-- The state with the result of the last command as its source buffer: `SRC = DST` and `LEN = RLEN` (R96, R98). -/
abbrev State.onResult (s : State) : State := { s with src := s.dst, len := s.rlen }

/-- What `PAD` leaves where all its checks pass: the padded source at `DST` and its length in `RLEN` (R95). -/
def State.padded (s : State) : State :=
  s.done (s.len.toNat + padCount s.len.toNat)
    (some ⟨s.dst.toNat, s.len.toNat + padCount s.len.toNat, padBytes (s.mem.read s.src.toNat s.len.toNat)⟩)

/-- A run of `PAD` that ends by `Done` has passed every check, and leaves `State.padded`. -/
theorem eq_padded_of_exec (hf : s.status.fatal = false) (ht : exec .pad s = .next t) (hdone : outOf t = .done) :
    t = s.padded ∧ s.destFits ∧ s.schemeOk ∧ s.len.toNat + padCount s.len.toNat ≤ s.dcap.toNat := by
  obtain rfl := eq_finish_of_exec hf ht
  obtain ⟨n, st, hend⟩ := (outOf_finish_eq_done hf).mp hdone
  obtain ⟨hsrc, hdst, hapart, hscheme, hroom⟩ := padEnding_inv hend
  exact ⟨congrArg s.finish (padEnding_done hsrc hdst hapart hscheme hroom), hdst, hscheme, hroom⟩

theorem padded_rlen_toNat (hroom : s.len.toNat + padCount s.len.toNat ≤ s.dcap.toNat) :
    s.padded.rlen.toNat = s.len.toNat + padCount s.len.toNat := by
  rw [State.padded, State.done_rlen, BitVec.toNat_ofNat, Nat.mod_eq_of_lt (by omega)]

/-- The destination holds `pad` of the source. -/
theorem padded_read (s : State) : s.padded.mem.read s.dst.toNat (s.len.toNat + padCount s.len.toNat) =
    padBytes (s.mem.read s.src.toNat s.len.toNat) :=
  Memory.read_write _ _ _ _ (by simp)

/-- The destination begins with the bytes of the source. -/
theorem padded_byteAt_data (s : State) {k : Nat} (hk : k < s.len.toNat) :
    s.padded.mem.byteAt (s.dst.toNat + k) = s.mem.byteAt (s.src.toNat + k) := by
  refine (Memory.byteAt_write_in _ _ _ _ _ (Nat.lt_add_right _ hk)).trans ?_
  rw [getD_padBytes_data _ _ (by simpa using hk), Memory.getD_read _ _ _ _ hk]

/-- After the data the destination holds the padding count, as many times as it says. -/
theorem padded_byteAt_padding (s : State) {k : Nat} (hlo : s.len.toNat ≤ k)
    (hhi : k < s.len.toNat + padCount s.len.toNat) :
    (s.padded.mem.byteAt (s.dst.toNat + k)).toNat = padCount s.len.toNat := by
  refine (congrArg BitVec.toNat (Memory.byteAt_write_in _ _ _ _ _ hhi)).trans ?_
  rw [getD_padBytes_padding _ _ (by simpa using hlo) (by simpa using hhi), Memory.read_length, padByte_toNat]

/-! ## `UNPAD` -/

/-- `UNPAD` after its checks is `unpad` of the source buffer, of which it keeps the length (R97). -/
theorem unpadResult_eq (s : State) : unpadResult s =
    (unpadBytes (s.mem.read s.src.toNat s.len.toNat)).elim (.raise (.err .blockUnpadding)) fun r =>
      .done r.length none := by
  by_cases h0 : s.len.toNat = 0
  · rw [h0]
    exact if_pos h0
  · rw [unpadBytes_read _ _ h0]
    refine (if_neg h0).trans ?_
    by_cases hlast : (s.mem.byteAt (s.src.toNat + s.len.toNat - 1)).toNat ≥ s.len.toNat
    · rw [if_pos hlast]
      exact if_pos hlast
    · rw [if_neg hlast, Option.elim_some, Memory.read_length]
      exact if_neg hlast

/-- `UNPAD` whose checks pass goes on to its result. -/
theorem unpadEnding_pass (hsrc : s.sourceFits) (hscheme : s.schemeOk) : unpadEnding s = unpadResult s := by
  refine checked_of_none (fun c hc => ?_) _
  simp only [geometryCheck1, List.cons_append, List.nil_append, List.mem_cons, List.not_mem_nil, or_false] at hc
  rcases hc with rfl | rfl
  · exact boundsCheck_eq_none.mpr hsrc
  · exact schemeCheck_eq_none.mpr hscheme

/-- The run of `UNPAD` on a source buffer that `unpad` takes to `r`. -/
theorem exec_unpad_some (hf : s.status.fatal = false) (hsrc : s.sourceFits) (hscheme : s.schemeOk) {r : List Byte}
    (hr : unpadBytes (s.mem.read s.src.toNat s.len.toNat) = some r) : exec .unpad s = .next (s.done r.length none) := by
  refine exec_done hf ((unpadEnding_pass hsrc hscheme).trans ?_)
  rw [unpadResult_eq, hr, Option.elim_some]

/-- The run of `UNPAD` on a source buffer on which `unpad` fails. -/
theorem exec_unpad_none (hf : s.status.fatal = false) (hsrc : s.sourceFits) (hscheme : s.schemeOk)
    (hr : unpadBytes (s.mem.read s.src.toNat s.len.toNat) = none) :
    exec .unpad s = .next (s.raiseErr .blockUnpadding) := by
  rw [exec_run .unpad hf, endingOf, unpadEnding_pass hsrc hscheme, unpadResult_eq, hr, Option.elim_none, finish_err]

/-- The run of `UNPAD` on the result of `PAD` is `unpad` of the padded source: it ends by `Done` with the length of the
data, or by `ERR_BLOCK_UNPADDING` when there was none (R98). -/
theorem exec_unpad_padded (hf : s.status.fatal = false) (hdst : s.destFits) (hscheme : s.schemeOk)
    (hroom : s.len.toNat + padCount s.len.toNat ≤ s.dcap.toNat) :
    exec .unpad s.padded.onResult = .next (if s.len = 0 then s.padded.onResult.raiseErr .blockUnpadding
      else s.padded.onResult.done s.len.toNat none) := by
  have hrlen := padded_rlen_toNat hroom
  have hread : s.padded.mem.read s.dst.toNat s.padded.rlen.toNat = padBytes (s.mem.read s.src.toNat s.len.toNat) := by
    rw [hrlen, padded_read]
  have hfits : s.dst.toNat + s.padded.rlen.toNat ≤ s.padded.mem.size := by
    rw [hrlen, State.padded, State.done_mem, Memory.apply_size]
    omega
  have hempty : s.mem.read s.src.toNat s.len.toNat = [] ↔ s.len = 0 := by
    rw [← List.length_eq_zero_iff, Memory.read_length]
    exact BitVec.toNat_eq (y := 0).symm
  have hunpad := (congrArg unpadBytes hread).trans (unpadBytes_padBytes _)
  by_cases h0 : s.len = 0
  · rw [if_pos (hempty.mpr h0)] at hunpad
    rw [if_pos h0]
    exact exec_unpad_none hf hfits hscheme hunpad
  · rw [if_neg (mt hempty.mp h0)] at hunpad
    rw [if_neg h0, exec_unpad_some (s := s.padded.onResult) hf hfits hscheme hunpad, Memory.read_length]

/-! ## `CFG.PADS` -/

/-- An ending neither reads nor writes `CFG`. -/
theorem finish_withCfg (s : State) (c : Cfg) (e : Ending) :
    { s with cfg := c }.finish e = { s.finish e with cfg := c } := by
  cases e with
  | done n st => rfl
  | raise r => cases r <;> rfl

/-- A command that ends alike under two settings of `CFG` has the same outcome under both, but for `CFG`. -/
theorem exec_withCfg {i : Instr} {c d : Cfg} (h : endingOf i { s with cfg := c } = endingOf i { s with cfg := d }) :
    ∃ t : State, exec i { s with cfg := c } = .next { t with cfg := c } ∧
      exec i { s with cfg := d } = .next { t with cfg := d } := by
  cases hf : s.status.fatal with
  | true => exact ⟨s, exec_frozen i hf, exec_frozen i hf⟩
  | false =>
    refine ⟨s.finish (endingOf i { s with cfg := c }), ?_, ?_⟩
    · rw [← finish_withCfg]
      exact exec_run i hf
    · rw [← finish_withCfg, h]
      exact exec_run i hf

/-- The two recognised padding tags pass the same checks (R90). -/
theorem endingOf_recognisedPads {i : Instr} (hi : i = .pad ∨ i = .unpad) (s : State) :
    endingOf i { s with cfg := { s.cfg with pads := 0 } } = endingOf i { s with cfg := { s.cfg with pads := 1 } } := by
  rcases hi with rfl | rfl
  · simp [endingOf, padEnding_eq]
  · simp [endingOf, unpadEnding_eq]

/-- A tag other than 0 and 1 ends a padding command once its geometry checks pass (R90). -/
theorem endingOf_unknownPadding {i : Instr} (hi : i = .pad ∨ i = .unpad) (hscheme : ¬s.schemeOk) (hsrc : s.sourceFits)
    (hdst : i = .pad → s.destFits ∧ s.overlapOK) : endingOf i s = .raise (.err .unknownPadding) := by
  rcases hi with rfl | rfl
  · obtain ⟨hdst, hapart⟩ := hdst rfl
    rw [endingOf, padEnding_eq, if_neg (not_not.mpr hsrc), if_neg (not_not.mpr hdst), if_neg (not_not.mpr hapart),
      if_pos hscheme]
  · rw [endingOf, unpadEnding_eq, if_neg (not_not.mpr hsrc), if_pos hscheme]

/-! ## `XENC` and `XDEC` on whole blocks -/

/-- Two recoverable errors with one number are one error (R150). -/
theorem ErrCode.code_inj {c d : ErrCode} (h : c.code.toNat = d.code.toNat) : c = d := by
  revert h
  cases c <;> cases d <;> decide

/-- A command has ended by an error's number exactly when its ending raises that error. -/
theorem outOf_finish_eq_err (hf : s.status.fatal = false) {e : Ending} {c : ErrCode} :
    outOf (s.finish e) = .err c.code.toNat ↔ e = .raise (.err c) := by
  cases e with
  | done n st => simp [outOf_done hf]
  | raise r =>
    cases r with
    | fatal f => simp [outOf_raiseFatal]
    | err d =>
      rw [finish_err, outOf_raiseErr hf]
      refine ⟨fun h => ?_, fun h => ?_⟩
      · rw [ErrCode.code_inj (Out.err.inj h)]
      · cases h
        rfl

/-- On whole blocks the dispatcher does not raise `ERR_BLOCK_LENGTH` (R125). -/
theorem dispatchEnding_ne_blockLength (f : State → Mode → List Byte → List Byte) (h : s.len.toNat % 16 = 0) :
    dispatchEnding f s ≠ .raise (.err .blockLength) := by
  rw [dispatch_eq, if_neg (not_not.mpr h)]
  repeat' split
  all_goals nofun

/-- `XENC` on whole blocks does not end by `ERR_BLOCK_LENGTH`. -/
theorem outOf_xenc_ne_blockLength (hf : s.status.fatal = false) (hlen : s.len.toNat % 16 = 0)
    (ht : exec .xenc s = .next t) : outOf t ≠ .err 5 := by
  obtain rfl := eq_finish_of_exec hf ht
  exact fun h => dispatchEnding_ne_blockLength _ hlen ((outOf_finish_eq_err (c := .blockLength) hf).mp h)

/-! ## The obligations of 40_padding.md -/

/-- Settles O22: the count is `padCount`, and the next lower multiple of 16 is not above `L`. -/
theorem padAppendsItsCount : Obligations.PadAppendsItsCount := by
  intro data
  obtain ⟨hlo, hhi⟩ := padCount_bounds data.length
  refine ⟨padCount data.length, hlo, hhi, rfl, rfl, ?_, fun m hm hlt => ?_⟩
  · rw [padBytes_length, padCount_aligns]
  · rw [padBytes_length, padCount]
    omega

/-- Settles O24: the run is `padEnding_done`, and its store leaves the data, the padding and the rest of MEM. -/
theorem padCompletes : Obligations.PadCompletes := by
  intro s hf ⟨hsrc, hdst, hapart⟩ hscheme hroom
  refine ⟨s.padded, exec_done hf (padEnding_done hsrc hdst hapart hscheme hroom), ⟨rfl, padded_rlen_toNat hroom, ?_⟩,
    fun k => padded_byteAt_data s, fun k => padded_byteAt_padding s, fun a ha => ?_⟩
  · exact Memory.write_size _ _ _ _
  · exact Memory.byteAt_write_out _ _ _ _ _ ha

/-- Settles O25: `UNPAD` is `unpad` of the source buffer, which succeeds on it. -/
theorem unpadCompletes : Obligations.UnpadCompletes := by
  intro s hf hsrc hscheme hlast
  have hzero : s.len = 0 ↔ s.len.toNat = 0 := BitVec.toNat_eq (y := 0)
  obtain ⟨n, hn, hlen, hunpad⟩ : ∃ n, n ≤ s.len.toNat ∧
      (n = if s.len = 0 then 0 else s.len.toNat - (s.mem.byteAt (s.src.toNat + s.len.toNat - 1)).toNat) ∧
      unpadBytes (s.mem.read s.src.toNat s.len.toNat) = some (s.mem.read s.src.toNat n) := by
    by_cases h0 : s.len = 0
    · exact ⟨0, Nat.zero_le _, (if_pos h0).symm, by rw [hzero.mp h0]; rfl⟩
    · refine ⟨_, Nat.sub_le _ _, (if_neg h0).symm, ?_⟩
      rw [unpadBytes_read _ _ (mt hzero.mpr h0), if_neg (Nat.not_le.mpr (hlast h0))]
  have hrlen : (BitVec.ofNat 32 n).toNat = n := by
    rw [BitVec.toNat_ofNat, Nat.mod_eq_of_lt (by omega)]
  have hexec := exec_unpad_some hf hsrc hscheme hunpad
  rw [Memory.read_length] at hexec
  refine ⟨_, _, hexec, ⟨rfl, ?_, rfl⟩, rfl, hunpad, ?_, hrlen.trans hlen⟩
  · rw [State.done_rlen, hrlen, Memory.read_length]
  · rw [State.done_rlen, hrlen]

/-- Settles O26: the endings read no more of `CFG` than whether its padding tag is recognised. -/
theorem paddingSchemesAgree : Obligations.PaddingSchemesAgree := by
  intro i s hi
  refine ⟨exec_withCfg (endingOf_recognisedPads hi s), fun hf hscheme hsrc hdst => ?_⟩
  rw [exec_run i hf, endingOf_unknownPadding hi hscheme hsrc hdst]
  rfl

/-- Settles O27: the length of the padded source is a multiple of 16, on which XENC raises no `ERR_BLOCK_LENGTH`. -/
theorem padMeetsTheDispatcher : Obligations.PadMeetsTheDispatcher := by
  intro s t u hf ht hdone
  obtain ⟨rfl, -, -, hroom⟩ := eq_padded_of_exec hf ht hdone
  have haligned : s.padded.rlen.toNat % 16 = 0 := by rw [padded_rlen_toNat hroom, padCount_aligns]
  exact ⟨haligned, outOf_xenc_ne_blockLength (s := s.padded.onResult) hf haligned⟩

/-- Settles O28: the source buffer of `UNPAD` holds `pad` of that of `PAD`. -/
theorem unpadUndoesPad : Obligations.UnpadUndoesPad := by
  refine ⟨unpadBytes_padBytes, fun s t hf ht hdone => ?_⟩
  obtain ⟨rfl, hdst, hscheme, hroom⟩ := eq_padded_of_exec hf ht hdone
  refine ⟨_, exec_unpad_padded hf hdst hscheme hroom, fun h0 => ?_, fun h0 => ?_⟩
  · rw [if_pos h0]
    exact outOf_raiseErr (s := s.padded.onResult) hf .blockUnpadding
  · rw [if_neg h0]
    refine ⟨outOf_done (s := s.padded.onResult) hf _ _, ?_, fun k => padded_byteAt_data s⟩
    rw [State.done_rlen, BitVec.ofNat_toNat, BitVec.setWidth_eq]

/-- Settles O23: the last byte of `front ++ [n]` is `n`. -/
theorem unpadTruncatesByLastByte : Obligations.UnpadTruncatesByLastByte := by
  refine ⟨unpadBytes_nil, fun front n => ?_⟩
  rw [unpadBytes_of_getLast? List.getLast?_concat, List.length_append, List.length_singleton]

end Sys2Proof.Machine

/-! PROOFS. The ECB adapter (41_ecb_adapter.md): the transform on whole strides, and what `ECBENC` and `ECBDEC` leave
where their checks pass, as a whole and stride by stride; then the obligations of that file. -/

namespace Sys2Proof.Machine

open Claim

variable {s t : State} {i : Instr} {f : List Byte → Block → Block}

/-! ## Strides -/

/-- A block whose bytes are input stride `n` goes to output stride `n` (R110). -/
theorem ecb_stride_eq (g : Block → Block) {data : List Byte} {n : Nat} (hn : n < data.length / 16) {b : Block}
    (hb : b.toList = (data.drop (16 * n)).take 16) : ((ecb g data).drop (16 * n)).take 16 = (g b).toList := by
  rw [ecb_stride g data n hn, ← hb, blockOf_toList]

/-- The bytes read of a stride are the block it holds (R58). -/
theorem blockOf_read (m : Memory) (a : Nat) : blockOf (m.read a 16) = Vector.ofFn fun k => m.byteAt (a + k.val) := by
  apply Vector.ext
  intro k hk
  rw [blockOf, Vector.getElem_ofFn, Vector.getElem_ofFn, Memory.getD_read _ _ _ _ hk]

/-- Stride `n` of what a command reads of its source buffer is the vocabulary's source stride (R58, R61). -/
theorem blockOf_sourceStride {n : Nat} (hn : n < s.len.toNat / 16) :
    blockOf (((s.mem.read s.src.toNat s.len.toNat).drop (16 * n)).take 16) = sourceStride s n := by
  rw [Memory.read_drop _ _ _ _ (by omega), Memory.read_take _ _ _ _ (by omega), blockOf_read, sourceStride]

/-! ## `ECBENC` and `ECBDEC` -/

/-- The function of PRIM each command of the adapter applies (R113, R114). -/
abbrev AdapterPrim (i : Instr) (f : List Byte → Block → Block) : Prop :=
  (i = .ecbenc ∧ f = Config.prim.enc) ∨ (i = .ecbdec ∧ f = Config.prim.dec)

/-- What a command of the adapter leaves where all its checks pass: the transform of the source at `DST` and `LEN` in
`RLEN` (R113, R114). -/
def State.ecbResult (f : List Byte → Block → Block) (s : State) : State :=
  s.done s.len.toNat
    (some ⟨s.dst.toNat, s.len.toNat, ecb (f s.keyBytes) (s.mem.read s.src.toNat s.len.toNat)⟩)

/-- The two commands differ in the function of PRIM alone. -/
theorem endingOf_adapter (hi : AdapterPrim i f) (s : State) :
    endingOf i s = checked (adapterChecks s) (transformEnding (ecb (f s.keyBytes)) s) := by
  rcases hi with ⟨rfl, rfl⟩ | ⟨rfl, rfl⟩ <;> rfl

/-- The run of a command of the adapter on operands that pass its checks. -/
theorem exec_adapter (hi : AdapterPrim i f) (hf : s.status.fatal = false) (hgeom : Geometry s)
    (hkey : KeyLen s.keylen.toNat) (hlen : s.len.toNat % 16 = 0) (hcap : s.len.toNat ≤ s.dcap.toNat) :
    exec i s = .next (s.ecbResult f) := by
  obtain ⟨hsrc, hdst, hapart⟩ := hgeom
  exact exec_done hf ((endingOf_adapter hi s).trans (adapter_done _ hsrc hdst hapart hkey hlen hcap))

/-- A run of a command of the adapter that ends by `Done` has passed every check, and leaves `State.ecbResult`. -/
theorem eq_ecbResult_of_exec (hi : AdapterPrim i f) (hf : s.status.fatal = false) (ht : exec i s = .next t)
    (hdone : outOf t = .done) : t = s.ecbResult f ∧ KeyLen s.keylen.toNat ∧ s.len.toNat % 16 = 0 := by
  obtain rfl := eq_finish_of_exec hf ht
  obtain ⟨n, st, hend⟩ := (outOf_finish_eq_done hf).mp hdone
  rw [endingOf_adapter hi] at hend ⊢
  obtain ⟨hsrc, hdst, hapart, hkey, hlen, hcap⟩ := adapter_inv hend
  exact ⟨congrArg s.finish (adapter_done _ hsrc hdst hapart hkey hlen hcap), hkey, hlen⟩

/-- The destination holds the transform of the source. -/
theorem ecbResult_read (f : List Byte → Block → Block) (hlen : s.len.toNat % 16 = 0) :
    (s.ecbResult f).mem.read s.dst.toNat s.len.toNat =
      ecb (f s.keyBytes) (s.mem.read s.src.toNat s.len.toNat) := by
  refine Memory.read_write _ _ _ _ ?_
  rw [ecb_length _ _ (by rwa [Memory.read_length]), Memory.read_length]

/-- Stride `n` of the destination holds PRIM of stride `n` of the source, and nothing else enters it (R110, R116). -/
theorem ecbResult_byteAt (f : List Byte → Block → Block) {n : Nat} (hn : n < s.len.toNat / 16) (k : Fin 16) :
    (s.ecbResult f).mem.byteAt (s.dst.toNat + 16 * n + k.val) = (f s.keyBytes (sourceStride s n))[k] := by
  have hk : 16 * n + k.val < s.len.toNat := by omega
  rw [Nat.add_assoc, ← blockOf_sourceStride hn, ← ecb_getD _ _ _ _ (by rwa [Memory.read_length])]
  exact Memory.byteAt_write_in _ _ _ _ _ hk

/-- The state with the destination buffer of the last command as its source, `LEN` unchanged, and a new destination
(R115, R130). -/
abbrev State.fromDest (s : State) (c cap : Word) : State := { s with src := s.dst, dst := c, dcap := cap }

/-- `ECBDEC` of the result of `ECBENC`, to any buffer, leaves the source of `ECBENC` there (R115). -/
theorem ecbResult_fromDest_read (hkey : KeyLen s.keylen.toNat) (hlen : s.len.toNat % 16 = 0) (c cap : Word) :
    (((s.ecbResult Config.prim.enc).fromDest c cap).ecbResult Config.prim.dec).mem.read c.toNat s.len.toNat =
      s.mem.read s.src.toNat s.len.toNat := by
  calc
    _ = ecb (Config.prim.dec s.keyBytes) ((s.ecbResult Config.prim.enc).mem.read s.dst.toNat s.len.toNat) :=
      ecbResult_read (s := (s.ecbResult Config.prim.enc).fromDest c cap) _ hlen
    _ = ecb (Config.prim.dec s.keyBytes)
          (ecb (Config.prim.enc s.keyBytes) (s.mem.read s.src.toNat s.len.toNat)) := by rw [ecbResult_read _ hlen]
    _ = s.mem.read s.src.toNat s.len.toNat :=
      ecb_ecb _ _ (fun b => Config.prim.dec_enc _ b (by rwa [keyBytes_length])) _ (by rwa [Memory.read_length])

/-! ## The obligations of 41_ecb_adapter.md -/

/-- Settles O30: the run is `exec_adapter`, and its store leaves PRIM of each stride and the rest of MEM. -/
theorem ecbCommandsComplete : Obligations.EcbCommandsComplete := by
  intro s i f hi hf hgeom hkey hlen hcap
  refine ⟨s.ecbResult f, exec_adapter hi hf hgeom hkey hlen hcap, ⟨rfl, ?_, ?_⟩, fun a ha => ?_, fun n k hn => ?_⟩
  · rw [State.ecbResult, State.done_rlen, BitVec.ofNat_toNat, BitVec.setWidth_eq]
  · exact Memory.write_size _ _ _ _
  · exact Memory.byteAt_write_out _ _ _ _ _ ha
  · exact ecbResult_byteAt f hn k

/-- Settles O31: the laws P2 and P3 of PRIM, stride by stride. -/
theorem ecbdecUndoesEcbenc : Obligations.EcbdecUndoesEcbenc := by
  refine ⟨fun key data hkey hdata => ⟨?_, ?_⟩, fun s t u c cap hf ht hdone hu hdone' k hk => ?_⟩
  · exact ecb_ecb _ _ (fun b => Config.prim.dec_enc key b hkey) data hdata
  · exact ecb_ecb _ _ (fun b => Config.prim.enc_dec key b hkey) data hdata
  · obtain ⟨rfl, hkey, hlen⟩ := eq_ecbResult_of_exec (.inl ⟨rfl, rfl⟩) hf ht hdone
    obtain ⟨rfl, -, -⟩ := eq_ecbResult_of_exec (s := (s.ecbResult Config.prim.enc).fromDest c cap)
      (.inr ⟨rfl, rfl⟩) hf hu hdone'
    rw [← Memory.getD_read _ _ _ _ hk, ecbResult_fromDest_read hkey hlen, Memory.getD_read _ _ _ _ hk]

/-- Settles O32: both result strides are PRIM of one key and one source stride. -/
theorem ecbBlocksAreIndependent : Obligations.EcbBlocksAreIndependent := by
  intro i s s' t t' n n' k hi hf hf' ht hdone ht' hdone' hkey hn hn' hstride
  obtain ⟨f, hprim⟩ : ∃ f, AdapterPrim i f := by
    rcases hi with rfl | rfl
    · exact ⟨_, .inl ⟨rfl, rfl⟩⟩
    · exact ⟨_, .inr ⟨rfl, rfl⟩⟩
  obtain ⟨rfl, -, -⟩ := eq_ecbResult_of_exec hprim hf ht hdone
  obtain ⟨rfl, -, -⟩ := eq_ecbResult_of_exec hprim hf' ht' hdone'
  rw [ecbResult_byteAt f hn k, ecbResult_byteAt f hn' k, hkey, hstride]

/-- Settles O29: output stride `i` is PRIM of the block input stride `i` is. -/
theorem ecbIsPrimOnEachStride : Obligations.EcbIsPrimOnEachStride := fun _ data hdata =>
  ⟨ecb_length _ data hdata, ecb_length _ data hdata, fun _ hn _ hb => ⟨ecb_stride_eq _ hn hb, ecb_stride_eq _ hn hb⟩⟩

end Sys2Proof.Machine

/-! PROOFS. The mode multiplexer (42_mode_dispatch.md): what `XENC` and `XDEC` leave where their checks pass, mode ECB as
the adapter, and the ECB transform of a buffer in two parts; then the obligations of that file. -/

namespace Sys2Proof.Machine

open Claim

variable {s t : State} {i j : Instr} {m : Mode} {f : State → Mode → List Byte → List Byte}
  {g : List Byte → Block → Block}

/-! ## `XENC` and `XDEC` -/

/-- The transforms each command of the dispatcher selects from (R126 to R128). -/
abbrev DispatchTransform (i : Instr) (f : State → Mode → List Byte → List Byte) : Prop :=
  (i = .xenc ∧ f = encTransform) ∨ (i = .xdec ∧ f = decTransform)

/-- What a command of the dispatcher leaves where all its checks pass: the transform of mode `m` of the source at `DST`
and `LEN` in `RLEN` (R127, R128). -/
def State.modeResult (f : State → Mode → List Byte → List Byte) (m : Mode) (s : State) : State :=
  s.done s.len.toNat (some ⟨s.dst.toNat, s.len.toNat, f s m (s.mem.read s.src.toNat s.len.toNat)⟩)

/-- The two commands differ in the direction of the transform alone. -/
theorem endingOf_dispatch (hi : DispatchTransform i f) (s : State) : endingOf i s = dispatchEnding f s := by
  rcases hi with ⟨rfl, rfl⟩ | ⟨rfl, rfl⟩ <;> rfl

/-- Either direction gives as many bytes as it takes. -/
theorem dispatchTransform_length (hi : DispatchTransform i f) (m : Mode) {d : List Byte}
    (hkey : KeyLen s.keylen.toNat) (hd : d.length % 16 = 0) : (f s m d).length = d.length := by
  rcases hi with ⟨-, rfl⟩ | ⟨-, rfl⟩
  · exact encTransform_length m d hkey hd
  · exact decTransform_length m d hkey hd

/-- The run of a command of the dispatcher on operands that pass its checks. -/
theorem exec_dispatch (hi : DispatchTransform i f) (hf : s.status.fatal = false) (hgeom : Geometry s)
    (hkey : KeyLen s.keylen.toNat) (hlen : s.len.toNat % 16 = 0) (hm : modeOf s.cfg.mode = some m)
    (hcap : s.len.toNat ≤ s.dcap.toNat) : exec i s = .next (s.modeResult f m) := by
  obtain ⟨hsrc, hdst, hapart⟩ := hgeom
  exact exec_done hf ((endingOf_dispatch hi s).trans (dispatch_done f hsrc hdst hapart hkey hlen hm hcap))

/-- A run of a command of the dispatcher that ends by `Done` has passed every check, and leaves `State.modeResult` of
the selected mode. -/
theorem eq_modeResult_of_exec (hi : DispatchTransform i f) (hf : s.status.fatal = false) (ht : exec i s = .next t)
    (hdone : outOf t = .done) : ∃ m, modeOf s.cfg.mode = some m ∧ t = s.modeResult f m ∧
      KeyLen s.keylen.toNat ∧ s.len.toNat % 16 = 0 := by
  obtain rfl := eq_finish_of_exec hf ht
  obtain ⟨n, st, hend⟩ := (outOf_finish_eq_done hf).mp hdone
  rw [endingOf_dispatch hi] at hend ⊢
  obtain ⟨hsrc, hdst, hapart, hkey, hlen, ⟨m, hm⟩, hcap⟩ := dispatch_inv hend
  exact ⟨m, hm, congrArg s.finish (dispatch_done f hsrc hdst hapart hkey hlen hm hcap), hkey, hlen⟩

/-- The destination holds the transform of the source. -/
theorem modeResult_read (hi : DispatchTransform i f) (m : Mode) (hkey : KeyLen s.keylen.toNat)
    (hlen : s.len.toNat % 16 = 0) : (s.modeResult f m).mem.read s.dst.toNat s.len.toNat =
      f s m (s.mem.read s.src.toNat s.len.toNat) := by
  refine Memory.read_write _ _ _ _ ?_
  rw [dispatchTransform_length hi m hkey (by rwa [Memory.read_length]), Memory.read_length]

/-- A command of the dispatcher on operands that pass its checks, in either direction (R127, R128, R155, R51). -/
theorem dispatch_completes (hi : DispatchTransform i f) (hf : s.status.fatal = false) (hgeom : Geometry s)
    (hkey : KeyLen s.keylen.toNat) (hlen : s.len.toNat % 16 = 0) (hm : modeOf s.cfg.mode = some m)
    (hcap : s.len.toNat ≤ s.dcap.toNat) :
    ∃ t, exec i s = .next t ∧ DoneOnly s t s.len.toNat ∧ SameOutside s t s.dst.toNat s.len.toNat ∧
      t.mem.read s.dst.toNat s.len.toNat = f s m (s.mem.read s.src.toNat s.len.toNat) := by
  refine ⟨s.modeResult f m, exec_dispatch hi hf hgeom hkey hlen hm hcap, ⟨rfl, ?_, ?_⟩, fun a ha => ?_,
    modeResult_read hi m hkey hlen⟩
  · rw [State.modeResult, State.done_rlen, BitVec.ofNat_toNat, BitVec.setWidth_eq]
  · exact Memory.write_size _ _ _ _
  · exact Memory.byteAt_write_out _ _ _ _ _ ha

/-- The vocabulary's transforms are those of the selected mode (R126). -/
theorem selectedTransforms (hm : modeOf s.cfg.mode = some m) :
    encBy s = encTransform s m ∧ decBy s = decTransform s m := by
  have htag : s.cfg.mode.toNat ≤ 4 := by
    by_contra h
    cases (modeOf_eq_none.mpr (by omega)).symm.trans hm
  rcases modeOf_cases htag with ⟨h, hmode⟩ | ⟨h, hmode⟩ | ⟨h, hmode⟩ | ⟨h, hmode⟩ | ⟨h, hmode⟩
  all_goals
    obtain rfl := Option.some.inj (hmode.symm.trans hm)
    constructor <;> funext d <;> simp only [encBy, decBy, encTransform, decTransform, h]

/-- `XDEC` of the result of `XENC`, to any buffer, leaves the source of `XENC` there (R130). -/
theorem modeResult_fromDest_read (m : Mode) (hkey : KeyLen s.keylen.toNat) (hlen : s.len.toNat % 16 = 0)
    (c cap : Word) :
    (((s.modeResult encTransform m).fromDest c cap).modeResult decTransform m).mem.read c.toNat s.len.toNat =
      s.mem.read s.src.toNat s.len.toNat := by
  calc
    _ = decTransform ((s.modeResult encTransform m).fromDest c cap) m
          ((s.modeResult encTransform m).mem.read s.dst.toNat s.len.toNat) :=
      modeResult_read (s := (s.modeResult encTransform m).fromDest c cap) (.inr ⟨rfl, rfl⟩) m hkey hlen
    _ = decTransform s m (encTransform s m (s.mem.read s.src.toNat s.len.toNat)) := by
      rw [modeResult_read (.inl ⟨rfl, rfl⟩) m hkey hlen]
      exact congrFun (decTransform_congr m rfl rfl rfl) _
    _ = s.mem.read s.src.toNat s.len.toNat :=
      decTransform_encTransform m _ hkey (by rwa [Memory.read_length])

/-! ## Mode ECB -/

/-- Tag 0 selects the adapter (R28). -/
theorem modeOf_of_eq_zero (h0 : s.cfg.mode = 0) : modeOf s.cfg.mode = some .ecb := by
  rw [h0]
  rfl

/-- On whole strides in mode ECB the dispatcher makes the adapter's checks in the adapter's order (R113, R127). -/
theorem dispatchEnding_ecb (f : State → Mode → List Byte → List Byte) (h0 : s.cfg.mode = 0)
    (hlen : s.len.toNat % 16 = 0) :
    dispatchEnding f s = checked (adapterChecks s) (transformEnding (f s .ecb) s) := by
  rw [dispatch_eq, adapter_eq, modeOf_of_eq_zero h0, if_neg (not_not.mpr hlen), if_neg (not_not.mpr hlen)]

/-- The command of the adapter with the direction of a command of the dispatcher. -/
abbrev SameDirection (i j : Instr) : Prop := (i = .xenc ∧ j = .ecbenc) ∨ (i = .xdec ∧ j = .ecbdec)

/-- On whole strides in mode ECB a command of the dispatcher is the adapter's of the same direction. -/
theorem exec_ecbMode (hij : SameDirection i j) (h0 : s.cfg.mode = 0) (hlen : s.len.toNat % 16 = 0) :
    exec i s = exec j s := by
  have hend : endingOf i s = endingOf j s := by
    rcases hij with ⟨rfl, rfl⟩ | ⟨rfl, rfl⟩ <;> exact dispatchEnding_ecb _ h0 hlen
  rw [exec_eq, exec_eq, command, command, hend]

/-- A length that is not whole strides is recoverable at the dispatcher, whatever its mode (R125). -/
theorem dispatchEnding_misaligned (f : State → Mode → List Byte → List Byte) (hsrc : s.sourceFits)
    (hdst : s.destFits) (hapart : s.overlapOK) (hkey : KeyLen s.keylen.toNat) (hlen : s.len.toNat % 16 ≠ 0) :
    dispatchEnding f s = .raise (.err .blockLength) := by
  rw [dispatch_eq, if_neg (not_not.mpr hsrc), if_neg (not_not.mpr hdst), if_neg (not_not.mpr hapart),
    if_neg (not_not.mpr hkey), if_pos hlen]

/-- The same length is fatal inside the adapter (R112). -/
theorem adapter_misaligned (f : List Byte → List Byte) (hsrc : s.sourceFits) (hdst : s.destFits)
    (hapart : s.overlapOK) (hkey : KeyLen s.keylen.toNat) (hlen : s.len.toNat % 16 ≠ 0) :
    checked (adapterChecks s) (transformEnding f s) = .raise (.fatal .srcLen) := by
  rw [adapter_eq, if_neg (not_not.mpr hsrc), if_neg (not_not.mpr hdst), if_neg (not_not.mpr hapart),
    if_neg (not_not.mpr hkey), if_pos hlen]

/-! ## A buffer in two parts -/

/-- The transform of two sequences of whole strides one after the other (R110). -/
theorem strides_append (f : Block → Block) (n k : Nat) {x : List Byte} (y : List Byte) (hx : x.length = 16 * n) :
    strides f (n + k) (x ++ y) = strides f n x ++ strides f k y := by
  induction n generalizing x with
  | zero =>
    obtain rfl := List.eq_nil_of_length_eq_zero hx
    rw [Nat.zero_add]
    rfl
  | succ n ih =>
    have h16 : 16 ≤ x.length := by omega
    rw [Nat.add_right_comm, strides, strides, List.take_append_of_le_length h16, List.drop_append_of_le_length h16,
      ih (by rw [List.length_drop]; omega), List.append_assoc]

/-- Under ECB no stride enters another's result, so the transform may be cut between two strides (R110, R131). -/
theorem ecb_append (f : Block → Block) {x : List Byte} (y : List Byte) (hx : x.length % 16 = 0) :
    ecb f (x ++ y) = ecb f x ++ ecb f y := by
  have hcount : (x ++ y).length / 16 = x.length / 16 + y.length / 16 := by
    rw [List.length_append]
    omega
  rw [ecb, hcount]
  exact strides_append f _ _ y (by omega)

/-- Writing two sequences one after the other is one write of both. -/
theorem Memory.write_append (m : Memory) (addr k : Nat) (x y : List Byte) :
    m.write addr (x.length + k) (x ++ y) = (m.write addr x.length x).write (addr + x.length) k y := by
  rw [Memory.write_add, ← Memory.write_take m addr x.length (x ++ y), List.take_left, List.drop_left]

/-- MEM with the ECB transform of the `n` bytes from `src` stored at `dst` (R57). -/
def Memory.storeEcb (f : Block → Block) (m : Memory) (src dst n : Nat) : Memory :=
  m.write dst n (ecb f (m.read src n))

@[simp] theorem Memory.storeEcb_zero (f : Block → Block) (m : Memory) (src dst : Nat) :
    m.storeEcb f src dst 0 = m := rfl

/-- What a command of the adapter leaves of MEM (R113, R114). -/
theorem ecbResult_mem (g : List Byte → Block → Block) (s : State) :
    (s.ecbResult g).mem = s.mem.storeEcb (g s.keyBytes) s.src.toNat s.dst.toNat s.len.toNat := rfl

/-- The transform stored in two parts, the rest of the source read after the first part is stored, leaves MEM as the
transform stored at once, for buffers in place or apart (R54, R131). -/
theorem Memory.storeEcb_add (f : Block → Block) (m : Memory) {src dst a b : Nat}
    (hapart : ApartAt src (a + b) dst (a + b)) (ha : a % 16 = 0) :
    (m.storeEcb f src dst a).storeEcb f (src + a) (dst + a) b = m.storeEcb f src dst (a + b) := by
  have hdata : (m.read src a).length = a := Memory.read_length _ _ _
  have hfirst : (ecb f (m.read src a)).length = a := by rw [ecb_length _ _ (by rwa [hdata]), hdata]
  have happend := m.write_append dst b (ecb f (m.read src a)) (ecb f (m.read (src + a) b))
  rw [hfirst] at happend
  simp only [storeEcb]
  rw [Memory.read_write_out _ _ _ _ _ _ (by omega), ← happend, ← ecb_append _ _ (by rwa [hdata]), ← Memory.read_append]

/-- The state with the first `a` bytes of both buffers as its buffers (R131). -/
abbrev State.firstPart (s : State) (a : Word) : State := { s with len := a, dcap := a }

/-- The state `u` with the buffers of `s` from their byte `a` on, of what `LEN` leaves of them, as its buffers (R131). -/
abbrev State.restPart (s : State) (a : Word) (u : State) : State :=
  { u with src := s.src + a, len := s.len - a, dst := s.dst + a, dcap := s.len - a }

section TwoParts

variable {a : Word} (hgeom : Geometry s) (hcap : s.len.toNat ≤ s.dcap.toNat) (ha : a.toNat ≤ s.len.toNat)

include hgeom hcap ha

/-- The first part passes the geometry checks where the whole does. -/
theorem firstPart_geometry : Geometry (s.firstPart a) := by
  obtain ⟨hsrc, hdst, hapart⟩ := hgeom
  refine ⟨?_, ?_, ?_⟩ <;> simp only [SourceFits, DestFits, Apart] <;> omega

/-- So does the rest: a sum of two words that wraps around is the end of a MEM of `2 ^ 32` bytes, and no byte is left. -/
theorem restPart_geometry {u : State} (hwf : s.mem.wf) (hu : u.mem.size = s.mem.size) :
    Geometry (s.restPart a u) := by
  obtain ⟨hsrc, hdst, hapart⟩ := hgeom
  obtain ⟨-, -, hsize⟩ := hwf
  have hrest := BitVec.toNat_sub_of_le (BitVec.le_def.mpr ha)
  refine ⟨?_, ?_, ?_⟩ <;> simp only [SourceFits, DestFits, Apart, hrest, hu, BitVec.toNat_add] <;> omega

/-- The two parts one after the other leave MEM as the whole does (R131). -/
theorem ecbResult_restPart_mem (g : List Byte → Block → Block) (hwf : s.mem.wf) (haligned : a.toNat % 16 = 0) :
    ((s.restPart a ((s.firstPart a).ecbResult g)).ecbResult g).mem = (s.ecbResult g).mem := by
  obtain ⟨hsrc, hdst, hapart⟩ := hgeom
  obtain ⟨-, -, hsize⟩ := hwf
  obtain ⟨b, hb⟩ := Nat.exists_eq_add_of_le ha
  have hrest : (s.len - a).toNat = b := by
    rw [BitVec.toNat_sub_of_le (BitVec.le_def.mpr ha), hb, Nat.add_sub_cancel_left]
  calc
    _ = (s.mem.storeEcb (g s.keyBytes) s.src.toNat s.dst.toNat a.toNat).storeEcb (g s.keyBytes)
          (s.src + a).toNat (s.dst + a).toNat (s.len - a).toNat := rfl
    _ = (s.mem.storeEcb (g s.keyBytes) s.src.toNat s.dst.toNat a.toNat).storeEcb (g s.keyBytes)
          (s.src.toNat + a.toNat) (s.dst.toNat + a.toNat) b := by
      rw [hrest]
      by_cases hb0 : b = 0
      · rw [hb0, Memory.storeEcb_zero, Memory.storeEcb_zero]
      · rw [BitVec.toNat_add_of_lt (by omega), BitVec.toNat_add_of_lt (by omega)]
    _ = (s.ecbResult g).mem := by
      rw [Memory.storeEcb_add _ _ (by omega) haligned, ← hb, ecbResult_mem]

end TwoParts

/-- The commands that apply PRIM stride by stride: the adapter's, and the dispatcher's in mode ECB (R131). -/
abbrev EcbCommand (i : Instr) (mode : Byte) : Prop :=
  i = .ecbenc ∨ i = .ecbdec ∨ ((i = .xenc ∨ i = .xdec) ∧ mode = 0)

/-- Such a command runs, on whole strides, as a command of the adapter. -/
theorem exists_adapter {mode : Byte} (hi : EcbCommand i mode) : ∃ j g, AdapterPrim j g ∧
    ∀ s : State, s.cfg.mode = mode → s.len.toNat % 16 = 0 → exec i s = exec j s := by
  rcases hi with rfl | rfl | ⟨rfl | rfl, rfl⟩
  · exact ⟨_, _, .inl ⟨rfl, rfl⟩, fun _ _ _ => rfl⟩
  · exact ⟨_, _, .inr ⟨rfl, rfl⟩, fun _ _ _ => rfl⟩
  · exact ⟨_, _, .inl ⟨rfl, rfl⟩, fun _ => exec_ecbMode (.inl ⟨rfl, rfl⟩)⟩
  · exact ⟨_, _, .inr ⟨rfl, rfl⟩, fun _ => exec_ecbMode (.inr ⟨rfl, rfl⟩)⟩

/-- Such a command ends by `Done` on whole strides only (R112, R125). -/
theorem aligned_of_done (hi : EcbCommand i s.cfg.mode) (hf : s.status.fatal = false) (ht : exec i s = .next t)
    (hdone : outOf t = .done) : s.len.toNat % 16 = 0 := by
  rcases hi with rfl | rfl | ⟨rfl | rfl, -⟩
  · obtain ⟨-, -, hlen⟩ := eq_ecbResult_of_exec (.inl ⟨rfl, rfl⟩) hf ht hdone
    exact hlen
  · obtain ⟨-, -, hlen⟩ := eq_ecbResult_of_exec (.inr ⟨rfl, rfl⟩) hf ht hdone
    exact hlen
  · obtain ⟨_, -, -, -, hlen⟩ := eq_modeResult_of_exec (.inl ⟨rfl, rfl⟩) hf ht hdone
    exact hlen
  · obtain ⟨_, -, -, -, hlen⟩ := eq_modeResult_of_exec (.inr ⟨rfl, rfl⟩) hf ht hdone
    exact hlen

/-- A run of a command of the adapter that ends by `Done` has buffers that pass the geometry checks, and room for the
result. -/
theorem buffers_of_done (hj : AdapterPrim j g) (hf : s.status.fatal = false) (ht : exec j s = .next t)
    (hdone : outOf t = .done) : Geometry s ∧ s.len.toNat ≤ s.dcap.toNat := by
  obtain rfl := eq_finish_of_exec hf ht
  obtain ⟨n, st, hend⟩ := (outOf_finish_eq_done hf).mp hdone
  rw [endingOf_adapter hj] at hend
  obtain ⟨hsrc, hdst, hapart, -, -, hcap⟩ := adapter_inv hend
  exact ⟨⟨hsrc, hdst, hapart⟩, hcap⟩

/-! ## The obligations of 42_mode_dispatch.md -/

/-- Settles O33: each part passes the checks the whole passes, and the two stores are one. -/
theorem ecbSplitsAtStrides : Obligations.EcbSplitsAtStrides := by
  intro i s t a hi hwf hf ht hdone ha hale
  have hlen := aligned_of_done hi hf ht hdone
  obtain ⟨j, g, hj, hrun⟩ := exists_adapter hi
  rw [hrun s rfl hlen] at ht
  obtain ⟨hgeom, hcap⟩ := buffers_of_done hj hf ht hdone
  obtain ⟨rfl, hkey, -⟩ := eq_ecbResult_of_exec hj hf ht hdone
  have hrest : (s.len - a).toNat % 16 = 0 := by
    rw [BitVec.toNat_sub_of_le (BitVec.le_def.mpr hale)]
    omega
  refine ⟨(s.firstPart a).ecbResult g, (s.restPart a ((s.firstPart a).ecbResult g)).ecbResult g, ?_,
    outOf_done (s := s.firstPart a) hf _ _, ?_,
    outOf_done (s := s.restPart a ((s.firstPart a).ecbResult g)) hf _ _, fun k _ => ?_⟩
  · rw [hrun (s.firstPart a) rfl ha]
    exact exec_adapter hj hf (firstPart_geometry hgeom hcap hale) hkey ha le_rfl
  · rw [hrun (s.restPart a ((s.firstPart a).ecbResult g)) rfl hrest]
    exact exec_adapter hj hf (restPart_geometry hgeom hcap hale hwf (Memory.write_size _ _ _ _)) hkey hrest le_rfl
  · rw [ecbResult_restPart_mem hgeom hcap hale g hwf ha]

/-- Settles O35: the run is `dispatch_completes` in the encrypt direction. -/
theorem xencCompletes : Obligations.XencCompletes := by
  intro s hf hgeom hkey hlen htag hcap
  obtain ⟨m, hm⟩ := exists_mode htag
  rw [(selectedTransforms hm).1]
  exact dispatch_completes (.inl ⟨rfl, rfl⟩) hf hgeom hkey hlen hm hcap

/-- Settles O36: the run is `dispatch_completes` in the decrypt direction. -/
theorem xdecCompletes : Obligations.XdecCompletes := by
  intro s hf hgeom hkey hlen htag hcap
  obtain ⟨m, hm⟩ := exists_mode htag
  rw [(selectedTransforms hm).2]
  exact dispatch_completes (.inr ⟨rfl, rfl⟩) hf hgeom hkey hlen hm hcap

/-- Settles O37: on whole strides the two make the same checks, and elsewhere the length check is the first to fail. -/
theorem ecbModeIsTheAdapter : Obligations.EcbModeIsTheAdapter := by
  intro s h0
  refine ⟨fun hlen => ⟨exec_ecbMode (.inl ⟨rfl, rfl⟩) h0 hlen, exec_ecbMode (.inr ⟨rfl, rfl⟩) h0 hlen⟩,
    fun hlen hf ⟨hsrc, hdst, hapart⟩ hkey => ?_⟩
  have hdispatch (f) := congrArg s.finish (dispatchEnding_misaligned f hsrc hdst hapart hkey hlen)
  have hadapter (f) := congrArg s.finish (adapter_misaligned f hsrc hdst hapart hkey hlen)
  simp only [exec_run _ hf]
  exact ⟨congrArg _ (hdispatch _), congrArg _ (hdispatch _), congrArg _ (hadapter _), congrArg _ (hadapter _)⟩

/-- Settles O38: `XDEC` selects the mode `XENC` selected, whose transforms undo each other. -/
theorem xdecUndoesXenc : Obligations.XdecUndoesXenc := by
  intro s t u c cap hf ht hdone hu hdone' k hk
  obtain ⟨m, hm, rfl, hkey, hlen⟩ := eq_modeResult_of_exec (.inl ⟨rfl, rfl⟩) hf ht hdone
  obtain ⟨m', hm', rfl, -, -⟩ := eq_modeResult_of_exec (s := (s.modeResult encTransform m).fromDest c cap)
    (.inr ⟨rfl, rfl⟩) hf hu hdone'
  obtain rfl := Option.some.inj (hm.symm.trans hm')
  rw [← Memory.getD_read _ _ _ _ hk, modeResult_fromDest_read m hkey hlen, Memory.getD_read _ _ _ _ hk]

end Sys2Proof.Machine

/-! PROOFS. The host sequences (43_facade_sequences.md): the registers and the banks a sequence writes, and `ENCRYPT` and
`DECRYPT` as the commands they issue; then the obligations of that file. -/

namespace Sys2Proof.Machine

open Claim

variable {s : State} {m : Mode} {i : Instr} {f : State → Mode → List Byte → List Byte}

/-! ## Loading a register bank -/

/-- Reading a register after a write to another one. -/
theorem readReg_storeReg_other (s : State) {r q : Reg} (v : Word) (h : q ≠ r) :
    readReg (storeReg s r v) q = readReg s q :=
  BitVec.eq_of_toNat_eq ((readReg_storeReg s r q v).trans (if_neg h))

/-- Reading a register that holds all 32 bits written, after a write to it. -/
theorem readReg_storeReg_word (s : State) {r : Reg} {v : Word} (h : writtenNat r v = some v.toNat) :
    readReg (storeReg s r v) r = v := by
  apply BitVec.eq_of_toNat_eq
  rw [readReg_storeReg, if_pos rfl, h, Option.getD_some]

/-- A bank of registers that are distinct and hold whole words: the key's and the IV's (R31, R33). -/
structure IsBank {n : Nat} (reg : Fin n → Reg) : Prop where
  injective : Function.Injective reg
  whole : ∀ (k : Fin n) (v : Word), writtenNat (reg k) v = some v.toNat

theorem isBank_key : IsBank Reg.key := ⟨fun _ _ => Reg.key.inj, fun _ _ => rfl⟩

theorem isBank_iv : IsBank Reg.iv := ⟨fun _ _ => Reg.iv.inj, fun _ _ => rfl⟩

/-- The state after the listed registers of a bank are written, in order. -/
def storeBank {n : Nat} (reg : Fin n → Reg) (v : Fin n → Word) (ks : List (Fin n)) (s : State) : State :=
  ks.foldl (fun t k => storeReg t (reg k) (v k)) s

section Bank

variable {n : Nat} {reg : Fin n → Reg} {v : Fin n → Word}

@[simp] theorem storeBank_status (ks : List (Fin n)) (s : State) : (storeBank reg v ks s).status = s.status := by
  induction ks generalizing s with
  | nil => rfl
  | cons k ks ih => exact (ih _).trans (storeReg_status _ _ _)

@[simp] theorem storeBank_mem (ks : List (Fin n)) (s : State) : (storeBank reg v ks s).mem = s.mem := by
  induction ks generalizing s with
  | nil => rfl
  | cons k ks ih => exact (ih _).trans (storeReg_mem _ _ _)

/-- A register that is not among those written reads as before. -/
theorem readReg_storeBank_other {ks : List (Fin n)} {q : Reg} (h : ∀ k ∈ ks, q ≠ reg k) (s : State) :
    readReg (storeBank reg v ks s) q = readReg s q := by
  induction ks generalizing s with
  | nil => rfl
  | cons k ks ih =>
    obtain ⟨hk, hks⟩ := List.forall_mem_cons.mp h
    exact (ih hks _).trans (readReg_storeReg_other _ _ hk)

/-- A register of the bank that is among those written reads as its value. -/
theorem readReg_storeBank (hreg : IsBank reg) {ks : List (Fin n)} {k : Fin n} (hk : k ∈ ks) (s : State) :
    readReg (storeBank reg v ks s) (reg k) = v k := by
  induction ks generalizing s with
  | nil => cases hk
  | cons j ks ih =>
    by_cases hks : k ∈ ks
    · exact ih hks _
    · obtain rfl := (List.mem_cons.mp hk).resolve_right hks
      have hfresh : ∀ j ∈ ks, reg k ≠ reg j := by
        intro j hj heq
        exact hks (hreg.injective heq ▸ hj)
      exact (readReg_storeBank_other hfresh _).trans (readReg_storeReg_word _ (hreg.whole k _))

/-- With `FATAL = 0` the writes to a bank store their values. -/
theorem runMoves_bank (hreg : IsBank reg) (hf : s.status.fatal = false) (ks : List (Fin n)) (ms : List HostMove) :
    runMoves (ks.map (fun k => wr (reg k) (v k)) ++ ms) s = runMoves ms (storeBank reg v ks s) := by
  induction ks generalizing s with
  | nil => rfl
  | cons k ks ih =>
    have hcmd : reg k ≠ .cmd := by
      intro hk
      cases (hk ▸ hreg.whole k 0 : writtenNat .cmd 0 = _)
    exact (runMoves_wr hf _ _ hcmd _).trans (ih (by rwa [storeReg_status]))

end Bank

/-! ## `NewOptions` -/

/-- `SETKEY` writes `KEYLEN` and then the registers of the key bank that the key's bytes reach (R75). -/
theorem setKey_eq (key : List Byte) : setKey key = wr .keylen (BitVec.ofNat 32 key.length) ::
    ((List.finRange 8).filter fun k => 4 * k.val < key.length).map fun k => wr (.key k) (packWord key k) := by
  rw [setKey, ← List.filterMap_eq_map, List.filterMap_filter]
  simp only [decide_eq_true_eq, Function.comp_apply]

/-- The block after `NewOptions(key, iv)` (R145). -/
def State.optioned (key iv : List Byte) (s : State) : State :=
  storeBank .iv (fun k => packWord iv k) (List.finRange 4)
    (storeBank .key (fun k => packWord key k) ((List.finRange 8).filter fun k => 4 * k.val < key.length)
      (storeReg s.resetMove .keylen (BitVec.ofNat 32 key.length)))

theorem runMoves_newOptions (key iv : List Byte) (s : State) :
    runMoves (newOptionsMoves key iv) s = .next (s.optioned key iv) := by
  have hreset : hostMove .reset s = .next s.resetMove := rfl
  rw [newOptionsMoves, runMoves_cons hreset, setKey_eq, List.cons_append, runMoves_wr rfl _ _ (by decide),
    runMoves_bank isBank_key rfl, setIv, ← List.append_nil (List.map _ (List.finRange 4)),
    runMoves_bank isBank_iv (by rw [storeBank_status]; rfl)]
  rfl

/-- A register outside the two banks reads as after `SETKEY`'s write to `KEYLEN`. -/
theorem readReg_optioned {q : Reg} (hkey : ∀ k, q ≠ .key k) (hiv : ∀ k, q ≠ .iv k) (key iv : List Byte) (s : State) :
    readReg (s.optioned key iv) q = readReg (storeReg s.resetMove .keylen (BitVec.ofNat 32 key.length)) q :=
  (readReg_storeBank_other (fun k _ => hiv k) _).trans (readReg_storeBank_other (fun k _ => hkey k) _)

/-- A key register that the key's bytes reach holds them packed (R31). -/
theorem readReg_optioned_key {key : List Byte} {k : Fin 8} (iv : List Byte) (hk : 4 * k.val < key.length) (s : State) :
    readReg (s.optioned key iv) (.key k) = packWord key k := by
  have hmem : k ∈ (List.finRange 8).filter fun k => 4 * k.val < key.length :=
    List.mem_filter.mpr ⟨List.mem_finRange k, decide_eq_true hk⟩
  exact (readReg_storeBank_other (reg := .iv) (q := .key k) (fun _ _ => nofun) _).trans
    (readReg_storeBank isBank_key hmem _)

/-- A byte of a bank whose register holds the packed word is the byte that was packed (R31, R33). -/
theorem bankByte_of_packWord {n : Nat} {bank : Vector Word n} {bytes : List Byte} {j : Nat} (hj : j / 4 < n)
    (h : bank[j / 4] = packWord bytes (j / 4)) : bankByte bank.toList j = bytes.getD j 0 := by
  have hget : bank.toList.getD (j / 4) 0 = packWord bytes (j / 4) := by
    rw [List.getD_eq_getElem _ _ (by simpa using hj), Vector.getElem_toList, h]
  rw [bankByte, hget, packWord_byte _ _ _ (Nat.mod_lt _ (by decide)), Nat.div_add_mod]

/-- The key bytes after `NewOptions` are the key (R31). -/
theorem optioned_keyBytes {key : List Byte} (iv : List Byte) (hkey : KeyLen key.length) (s : State) :
    (s.optioned key iv).keyBytes = key := by
  have hlen : (s.optioned key iv).keylen.toNat = key.length := by
    rw [← readReg_keylen_toNat, readReg_optioned (q := .keylen) (fun _ => nofun) (fun _ => nofun),
      readReg_keylen_toNat, storeReg_keylen_reg, BitVec.extractLsb'_toNat, BitVec.toNat_ofNat]
    omega
  have hbyte : ∀ j < key.length, bankByte (s.optioned key iv).key.toList j = key.getD j 0 := by
    intro j hj
    have hslot : j / 4 < 8 := by omega
    exact bankByte_of_packWord hslot (readReg_optioned_key (k := ⟨j / 4, hslot⟩) iv (by dsimp only; omega) s)
  apply List.ext_getElem (by rw [keyBytes_length, hlen])
  intro j hj hj'
  rw [← List.getD_eq_getElem key 0 hj', ← hbyte j hj']
  simp [State.keyBytes]

/-- The IV after `NewOptions` is the IV (R33). -/
theorem optioned_ivBlock {iv : List Byte} (key : List Byte) (hiv : iv.length = 16) (s : State) :
    (s.optioned key iv).ivBlock.toList = iv := by
  apply List.ext_getElem (by rw [Vector.length_toList, hiv])
  intro j hj hj'
  have hslot : j / 4 < 4 := by omega
  have hbyte : bankByte (s.optioned key iv).iv.toList j = iv.getD j 0 :=
    bankByte_of_packWord hslot (readReg_storeBank isBank_iv (List.mem_finRange ⟨j / 4, hslot⟩) _)
  rw [← List.getD_eq_getElem iv 0 hj', ← hbyte, Vector.getElem_toList]
  exact Vector.getElem_ofFn _

/-! ## The key length, read first -/

theorem facadeEncrypt_keySize (src len dst cap : Word) (hkey : ¬KeyLen s.keylen.toNat) :
    facadeEncrypt src len dst cap s = ⟨.failKeySize, s⟩ := by
  rw [facadeEncrypt, readReg_keylen_toNat, if_neg hkey]

theorem facadeDecrypt_keySize (src len dst cap : Word) (hkey : ¬KeyLen s.keylen.toNat) :
    facadeDecrypt src len dst cap s = ⟨.failKeySize, s⟩ := by
  rw [facadeDecrypt, readReg_keylen_toNat, if_neg hkey]

/-! ## A command of a sequence -/

/-- The state with the operands of a command in its registers (R140). -/
abbrev State.withOperands (s : State) (src len dst cap : Word) : State :=
  { s with src := src, len := len, dst := dst, dcap := cap }

/-- A mode tag above 4 ends a command of the dispatcher once the checks before it pass (R127, R128). -/
theorem dispatchEnding_unknownMode (f : State → Mode → List Byte → List Byte) (hsrc : s.sourceFits)
    (hdst : s.destFits) (hapart : s.overlapOK) (hkey : KeyLen s.keylen.toNat) (hlen : s.len.toNat % 16 = 0)
    (hmode : 5 ≤ s.cfg.mode.toNat) : dispatchEnding f s = .raise (.err .unknownMode) := by
  rw [dispatch_eq, if_neg (not_not.mpr hsrc), if_neg (not_not.mpr hdst), if_neg (not_not.mpr hapart),
    if_neg (not_not.mpr hkey), if_neg (not_not.mpr hlen), modeOf_eq_none.mpr hmode]

theorem exec_unknownMode (hi : DispatchTransform i f) (hf : s.status.fatal = false) (hgeom : Geometry s)
    (hkey : KeyLen s.keylen.toNat) (hlen : s.len.toNat % 16 = 0) (hmode : 5 ≤ s.cfg.mode.toNat) :
    exec i s = .next (s.raiseErr .unknownMode) := by
  obtain ⟨hsrc, hdst, hapart⟩ := hgeom
  rw [exec_run i hf, endingOf_dispatch hi, dispatchEnding_unknownMode f hsrc hdst hapart hkey hlen hmode, finish_err]

theorem exec_unknownPadding (hi : i = .pad ∨ i = .unpad) (hf : s.status.fatal = false) (hscheme : ¬s.schemeOk)
    (hsrc : s.sourceFits) (hdst : i = .pad → s.destFits ∧ s.overlapOK) :
    exec i s = .next (s.raiseErr .unknownPadding) := by
  rw [exec_run i hf, endingOf_unknownPadding hi hscheme hsrc hdst, finish_err]

/-- A sequence goes to `fail` where its command raises an error (R141, R142). -/
theorem afterCommand_raiseErr {ms : List HostMove} {t : State} {c : ErrCode}
    (h : runMoves ms s = .next (t.raiseErr c)) (hf : t.status.fatal = false) (rest : Word → State → FacadeResult) :
    afterCommand ms s rest = ⟨.fail c.code, t.raiseErr c⟩ :=
  afterCommand_err h hf rfl c.code_ne_zero rest

/-- A sequence goes on with the result length where its command ends by `Done` (R141, R142). -/
theorem afterCommand_runDone {ms : List HostMove} {t : State} {n : Nat} {st : Option Store}
    (h : runMoves ms s = .next (t.done n st)) (hf : t.status.fatal = false) (rest : Word → State → FacadeResult) :
    afterCommand ms s rest = rest (BitVec.ofNat 32 n) (t.done n st) :=
  afterCommand_done h hf rfl rest

/-! ## `ENCRYPT` -/

/-- What `XENC` in mode `m`, in place on the result of `PAD`, leaves where all checks pass (R141). -/
def State.encrypted (m : Mode) (s : State) : State := s.padded.onResult.modeResult encTransform m

/-- The moves of `ENCRYPT` after `PAD` execute `XENC` with the result of `PAD` as both buffers. -/
theorem runMoves_xencInPlace (hf : s.status.fatal = false) :
    runMoves [wr .src s.dst, wr .len s.padded.rlen, cmd .xenc] s.padded = exec .xenc s.padded.onResult :=
  runMoves_source (s := s.padded) hf _ _ _

section Padded

variable (hroom : s.len.toNat + padCount s.len.toNat ≤ s.dcap.toNat)

include hroom

theorem padded_rlen_aligned : s.padded.rlen.toNat % 16 = 0 := by
  rw [padded_rlen_toNat hroom, padCount_aligns]

/-- The result of `PAD` fits its destination buffer. -/
theorem padded_rlen_le : s.padded.rlen.toNat ≤ s.dcap.toNat := by
  rwa [padded_rlen_toNat hroom]

/-- The buffers of `XENC` in place on the result of `PAD` pass the geometry checks. -/
theorem padded_onResult_geometry (hgeom : Geometry s) : Geometry s.padded.onResult := by
  obtain ⟨-, hdst, -⟩ := hgeom
  have hsize : s.padded.mem.size = s.mem.size := Memory.write_size _ _ _ _
  have hrlen := padded_rlen_le hroom
  refine ⟨?_, ?_, .inl rfl⟩
  · change s.dst.toNat + s.padded.rlen.toNat ≤ s.padded.mem.size
    omega
  · exact hdst.trans_eq hsize.symm

end Padded

section Encrypt

variable {src len dst cap : Word} (hf : s.status.fatal = false) (hkey : KeyLen s.keylen.toNat)
  (hgeom : Geometry (s.withOperands src len dst cap)) (hroom : len.toNat + padCount len.toNat ≤ cap.toNat)

include hf hkey hgeom

theorem facadeEncrypt_unknownPadding (hscheme : ¬Scheme s) : facadeEncrypt src len dst cap s =
    ⟨.fail 2, (s.withOperands src len dst cap).raiseErr .unknownPadding⟩ := by
  obtain ⟨hsrc, hdst, hapart⟩ := hgeom
  have hpad := exec_unknownPadding (s := s.withOperands src len dst cap) (.inl rfl) hf hscheme hsrc
    fun _ => ⟨hdst, hapart⟩
  rw [facadeEncrypt, readReg_keylen_toNat, if_pos hkey, padMoves,
    afterCommand_raiseErr ((runMoves_operands hf _ _ _ _ _).trans hpad) hf]
  rfl

include hroom

/-- Where `PAD` passes its checks, `ENCRYPT` goes on to `XENC` in place on its result. -/
theorem facadeEncrypt_padded (hscheme : Scheme s) : facadeEncrypt src len dst cap s =
    afterCommand [wr .src dst, wr .len (s.withOperands src len dst cap).padded.rlen, cmd .xenc]
      (s.withOperands src len dst cap).padded fun clen u => ⟨.ok clen, u⟩ := by
  obtain ⟨hsrc, hdst, hapart⟩ := hgeom
  have hpad : exec .pad (s.withOperands src len dst cap) = .next (s.withOperands src len dst cap).padded :=
    exec_done hf (padEnding_done hsrc hdst hapart hscheme hroom)
  rw [facadeEncrypt, readReg_keylen_toNat, if_pos hkey, padMoves,
    afterCommand_runDone ((runMoves_operands hf _ _ _ _ _).trans hpad) hf]
  rfl

theorem facadeEncrypt_unknownMode (hscheme : Scheme s) (hmode : 5 ≤ s.cfg.mode.toNat) :
    facadeEncrypt src len dst cap s =
      ⟨.fail 1, (s.withOperands src len dst cap).padded.onResult.raiseErr .unknownMode⟩ := by
  have hxenc := exec_unknownMode (s := (s.withOperands src len dst cap).padded.onResult) (.inl ⟨rfl, rfl⟩) hf
    (padded_onResult_geometry hroom hgeom) hkey (padded_rlen_aligned hroom) hmode
  exact (facadeEncrypt_padded hf hkey hgeom hroom hscheme).trans
    (afterCommand_raiseErr ((runMoves_xencInPlace (s := s.withOperands src len dst cap) hf).trans hxenc) hf _)

/-- `ENCRYPT` succeeds where every check passes (R141). -/
theorem facadeEncrypt_ok (hscheme : Scheme s) (hm : modeOf s.cfg.mode = some m) :
    facadeEncrypt src len dst cap s =
      ⟨.ok (s.withOperands src len dst cap).padded.rlen, (s.withOperands src len dst cap).encrypted m⟩ := by
  have hxenc := exec_dispatch (s := (s.withOperands src len dst cap).padded.onResult) (.inl ⟨rfl, rfl⟩) hf
    (padded_onResult_geometry hroom hgeom) hkey (padded_rlen_aligned hroom) hm (padded_rlen_le hroom)
  rw [facadeEncrypt_padded hf hkey hgeom hroom hscheme, afterCommand_runDone
    ((runMoves_xencInPlace (s := s.withOperands src len dst cap) hf).trans hxenc) hf, BitVec.ofNat_toNat,
    BitVec.setWidth_eq]
  rfl

end Encrypt

/-! ## `DECRYPT` -/

/-- What `XDEC` in mode `m` leaves where all its checks pass, with its result as the source buffer (R142). -/
def State.decrypted (m : Mode) (s : State) : State := { s.modeResult decTransform m with src := s.dst }

/-- The moves of `DECRYPT` after `XDEC` execute `UNPAD` on its result. -/
theorem runMoves_unpadDecrypted (hf : s.status.fatal = false) (m : Mode) :
    runMoves (unpadMoves s.dst s.len) (s.modeResult decTransform m) = exec .unpad (s.decrypted m) :=
  runMoves_source (s := s.modeResult decTransform m) hf _ _ _

/-- The result of `XDEC` fits its destination buffer. -/
theorem decrypted_sourceFits (hgeom : Geometry s) (hcap : s.len.toNat ≤ s.dcap.toNat) (m : Mode) :
    (s.decrypted m).sourceFits := by
  obtain ⟨-, hdst, -⟩ := hgeom
  have hsize : (s.decrypted m).mem.size = s.mem.size := Memory.write_size _ _ _ _
  change s.dst.toNat + s.len.toNat ≤ (s.decrypted m).mem.size
  omega

section Decrypt

variable {src len dst cap : Word} {data : List Byte} (hf : s.status.fatal = false) (hkey : KeyLen s.keylen.toNat)
  (hgeom : Geometry (s.withOperands src len dst cap)) (hlen : len.toNat % 16 = 0)

include hf hkey hgeom hlen

theorem facadeDecrypt_unknownMode (hmode : 5 ≤ s.cfg.mode.toNat) : facadeDecrypt src len dst cap s =
    ⟨.fail 1, (s.withOperands src len dst cap).raiseErr .unknownMode⟩ := by
  have hxdec := exec_unknownMode (s := s.withOperands src len dst cap) (.inr ⟨rfl, rfl⟩) hf hgeom hkey hlen hmode
  rw [facadeDecrypt, readReg_keylen_toNat, if_pos hkey,
    afterCommand_raiseErr ((runMoves_operands hf _ _ _ _ _).trans hxdec) hf]
  rfl

variable (hcap : len.toNat ≤ cap.toNat) (hm : modeOf s.cfg.mode = some m)

include hcap hm

/-- Where `XDEC` passes its checks, `DECRYPT` goes on to `UNPAD` on its result. -/
theorem facadeDecrypt_transformed : facadeDecrypt src len dst cap s =
    afterCommand (unpadMoves dst len) ((s.withOperands src len dst cap).modeResult decTransform m)
      fun plen u => ⟨.ok plen, u⟩ := by
  have hxdec := exec_dispatch (s := s.withOperands src len dst cap) (.inr ⟨rfl, rfl⟩) hf hgeom hkey hlen hm hcap
  rw [facadeDecrypt, readReg_keylen_toNat, if_pos hkey,
    afterCommand_runDone ((runMoves_operands hf _ _ _ _ _).trans hxdec) hf, BitVec.ofNat_toNat, BitVec.setWidth_eq]
  rfl

theorem facadeDecrypt_unknownPadding (hscheme : ¬Scheme s) : facadeDecrypt src len dst cap s =
    ⟨.fail 2, ((s.withOperands src len dst cap).decrypted m).raiseErr .unknownPadding⟩ := by
  have hunpad := exec_unknownPadding (s := (s.withOperands src len dst cap).decrypted m) (.inr rfl) hf hscheme
    (decrypted_sourceFits hgeom hcap m) nofun
  exact (facadeDecrypt_transformed hf hkey hgeom hlen hcap hm).trans
    (afterCommand_raiseErr ((runMoves_unpadDecrypted (s := s.withOperands src len dst cap) hf m).trans hunpad) hf _)

variable (hscheme : Scheme s)
  (hread : ((s.withOperands src len dst cap).decrypted m).mem.read dst.toNat len.toNat = padBytes data)

include hscheme hread

/-- `DECRYPT` succeeds where `XDEC` leaves a padded non-empty sequence (R98, R142). -/
theorem facadeDecrypt_ok (hdata : data ≠ []) : facadeDecrypt src len dst cap s =
    ⟨.ok (BitVec.ofNat 32 data.length), ((s.withOperands src len dst cap).decrypted m).done data.length none⟩ := by
  have hresult := (congrArg unpadBytes hread).trans ((unpadBytes_padBytes data).trans (if_neg hdata))
  have hunpad := exec_unpad_some (s := (s.withOperands src len dst cap).decrypted m) hf
    (decrypted_sourceFits hgeom hcap m) hscheme hresult
  exact (facadeDecrypt_transformed hf hkey hgeom hlen hcap hm).trans
    (afterCommand_runDone ((runMoves_unpadDecrypted (s := s.withOperands src len dst cap) hf m).trans hunpad) hf _)

/-- `DECRYPT` fails where `XDEC` leaves the padded empty sequence (R98, R143). -/
theorem facadeDecrypt_blockUnpadding (hdata : data = []) : facadeDecrypt src len dst cap s =
    ⟨.fail 4, ((s.withOperands src len dst cap).decrypted m).raiseErr .blockUnpadding⟩ := by
  have hresult := (congrArg unpadBytes hread).trans ((unpadBytes_padBytes data).trans (if_pos hdata))
  have hunpad := exec_unpad_none (s := (s.withOperands src len dst cap).decrypted m) hf
    (decrypted_sourceFits hgeom hcap m) hscheme hresult
  exact (facadeDecrypt_transformed hf hkey hgeom hlen hcap hm).trans
    (afterCommand_raiseErr ((runMoves_unpadDecrypted (s := s.withOperands src len dst cap) hf m).trans hunpad) hf _)

end Decrypt

/-! ## `DECRYPT` of the result of `ENCRYPT` -/

/-- What `XDEC` in mode `m` of the result of `ENCRYPT`, to the buffer at `out`, leaves as the source of `UNPAD`
(R143). -/
abbrev State.roundTrip (m : Mode) (out room : Word) (s : State) : State :=
  ((s.encrypted m).withOperands s.dst s.padded.rlen out room).decrypted m

section RoundTrip

variable {out room : Word} (hroom : s.len.toNat + padCount s.len.toNat ≤ s.dcap.toNat)

include hroom

/-- The buffer of `XDEC`'s result holds the padded plaintext (R130). -/
theorem roundTrip_read (hkey : KeyLen s.keylen.toNat) : (s.roundTrip m out room).mem.read out.toNat
    s.padded.rlen.toNat = padBytes (s.mem.read s.src.toNat s.len.toNat) := by
  rw [← padded_read, ← padded_rlen_toNat hroom]
  exact modeResult_fromDest_read (s := s.padded.onResult) m hkey (padded_rlen_aligned hroom) out room

/-- The padded plaintext begins with the plaintext. -/
theorem roundTrip_byteAt (hkey : KeyLen s.keylen.toNat) {k : Nat} (hk : k < s.len.toNat) :
    (s.roundTrip m out room).mem.byteAt (out.toNat + k) = s.mem.byteAt (s.src.toNat + k) := by
  have hk' : k < s.padded.rlen.toNat := by
    rw [padded_rlen_toNat hroom]
    exact Nat.lt_add_right _ hk
  rw [← Memory.getD_read _ _ _ _ hk', roundTrip_read hroom hkey, getD_padBytes_data _ _ (by rwa [Memory.read_length]),
    Memory.getD_read _ _ _ _ hk]

variable (hdst : DestFits s) (hout : out.toNat + room.toNat ≤ s.mem.size)
  (hapart : ApartAt s.dst.toNat s.padded.rlen.toNat out.toNat room.toNat)

include hdst hout hapart

/-- The buffers of `XDEC` on the result of `ENCRYPT` pass the geometry checks. -/
theorem encrypted_geometry (m : Mode) : Geometry ((s.encrypted m).withOperands s.dst s.padded.rlen out room) := by
  have hsize : (s.encrypted m).mem.size = s.mem.size :=
    (Memory.write_size _ _ _ _).trans (Memory.write_size _ _ _ _)
  have hrlen := padded_rlen_le hroom
  refine ⟨?_, hout.trans_eq hsize.symm, hapart⟩
  change s.dst.toNat + s.padded.rlen.toNat ≤ (s.encrypted m).mem.size
  omega

variable (hf : s.status.fatal = false) (hkey : KeyLen s.keylen.toNat) (hscheme : Scheme s)
  (hm : modeOf s.cfg.mode = some m) (hfits : s.padded.rlen.toNat ≤ room.toNat)

include hf hkey hscheme hm hfits

/-- `DECRYPT` of the encrypted non-empty plaintext succeeds with its length (R143). -/
theorem facadeDecrypt_encrypted (hpos : 0 < s.len.toNat) :
    facadeDecrypt s.dst s.padded.rlen out room (s.encrypted m) =
      ⟨.ok s.len, (s.roundTrip m out room).done s.len.toNat none⟩ := by
  have hdata : s.mem.read s.src.toNat s.len.toNat ≠ [] := by
    rwa [← List.length_pos_iff, Memory.read_length]
  have hok := facadeDecrypt_ok (s := s.encrypted m) hf hkey (encrypted_geometry hroom hdst hout hapart m)
    (padded_rlen_aligned hroom) hfits hm hscheme (roundTrip_read hroom hkey) hdata
  rwa [Memory.read_length, BitVec.ofNat_toNat, BitVec.setWidth_eq] at hok

/-- `DECRYPT` of the encrypted empty plaintext fails (R143). -/
theorem facadeDecrypt_encrypted_empty (hzero : s.len.toNat = 0) :
    facadeDecrypt s.dst s.padded.rlen out room (s.encrypted m) =
      ⟨.fail 4, (s.roundTrip m out room).raiseErr .blockUnpadding⟩ := by
  have hdata : s.mem.read s.src.toNat s.len.toNat = [] := by
    rw [hzero]
    rfl
  exact facadeDecrypt_blockUnpadding (s := s.encrypted m) hf hkey (encrypted_geometry hroom hdst hout hapart m)
    (padded_rlen_aligned hroom) hfits hm hscheme (roundTrip_read hroom hkey) hdata

end RoundTrip

/-! ## The obligations of 43_facade_sequences.md -/

/-- Settles O44: `DECRYPT` runs `XDEC` on the result of `XENC` and `UNPAD` on the padded plaintext that leaves. -/
theorem decryptUndoesEncrypt : Obligations.DecryptUndoesEncrypt := by
  intro s src len dst cap hf hkey htag hscheme hpos hsrc hdst hapart hroom
  obtain ⟨m, hm⟩ := exists_mode htag
  refine ⟨_, _, facadeEncrypt_ok hf hkey ⟨hsrc, hdst, hapart⟩ hroom hscheme hm,
    padded_rlen_toNat (s := s.withOperands src len dst cap) hroom, fun out room hout houtapart hfits => ⟨_,
      facadeDecrypt_encrypted (s := s.withOperands src len dst cap) hroom hdst hout houtapart hf hkey hscheme hm hfits
        hpos, fun k hk => ?_⟩⟩
  exact roundTrip_byteAt (s := s.withOperands src len dst cap) hroom hkey hk

/-- Settles O45: the padded empty plaintext is one block of padding, which `UNPAD` rejects. -/
theorem emptyPlaintextDoesNotDecrypt : Obligations.EmptyPlaintextDoesNotDecrypt := by
  intro s src dst cap hf hkey htag hscheme hsrc hdst hroom
  obtain ⟨m, hm⟩ := exists_mode htag
  exact ⟨_, facadeEncrypt_ok hf hkey ⟨hsrc, hdst, .inr (.inl rfl)⟩ hroom hscheme hm,
    fun out room hout houtapart hfits => ⟨_, facadeDecrypt_encrypted_empty (s := s.withOperands src 0 dst cap)
      hroom hdst hout houtapart hf hkey hscheme hm hfits rfl⟩⟩

/-- Settles O46: the host reads the key length first, and each command then reports the check that fails in it. -/
theorem facadeErrorsInOrder : Obligations.FacadeErrorsInOrder := by
  intro s src len dst cap hf hsrc hdst hapart hroom
  have hgeom : Geometry (s.withOperands src len dst cap) := ⟨hsrc, hdst, hapart⟩
  refine ⟨fun hkey => ⟨facadeEncrypt_keySize _ _ _ _ hkey, facadeDecrypt_keySize _ _ _ _ hkey⟩,
    fun hkey hscheme => ⟨congrArg _ (facadeEncrypt_unknownPadding hf hkey hgeom hscheme), fun htag hlen => ?_⟩,
    fun hkey hmode => ⟨fun hscheme => congrArg _ (facadeEncrypt_unknownMode hf hkey hgeom hroom hscheme hmode),
      fun hlen => congrArg _ (facadeDecrypt_unknownMode hf hkey hgeom hlen hmode)⟩⟩
  obtain ⟨m, hm⟩ := exists_mode htag
  have hcap : len.toNat ≤ cap.toNat := (Nat.le_add_right _ _).trans hroom
  exact congrArg _ (facadeDecrypt_unknownPadding hf hkey hgeom hlen hcap hm hscheme)

/-- Settles O47: the operand writes store their operands, and the last move executes the command. -/
theorem macrosWriteOperandsThenIssue : Obligations.MacrosWriteOperandsThenIssue := fun _ src len dst cap hf =>
  ⟨rfl, runMoves_operands hf src len dst cap .pad, runMoves_source hf src len .unpad,
    runMoves_operands hf src len dst cap .ecbenc, runMoves_operands hf src len dst cap .ecbdec⟩

/-- Settles O48: `Reset` gives the default `CFG` and `STATUS`, and each byte of a bank is the byte packed there. -/
theorem newOptionsLoadsKeyAndIv : Obligations.NewOptionsLoadsKeyAndIv := by
  intro s key iv hkey hiv
  refine ⟨s.optioned key iv, runMoves_newOptions key iv s, ?_, ?_, optioned_keyBytes iv hkey s,
    optioned_ivBlock key hiv s, ?_⟩
  · rw [valueAt_eq_readReg (off := 0x08) _ (regAt_offset .cfg),
      readReg_optioned (q := .cfg) (fun _ => nofun) (fun _ => nofun)]
    exact Cfg.toWord_toNat ⟨1, 1⟩
  · rw [valueAt_eq_readReg (off := 0x04) _ (regAt_offset .status),
      readReg_optioned (q := .status) (fun _ => nofun) (fun _ => nofun)]
    exact Status.toWord_toNat ⟨0, 0, false⟩
  · rw [State.optioned, storeBank_mem, storeBank_mem, storeReg_mem, State.resetMove_mem]

end Sys2Proof.Machine

/-! PROOFS. The endings of a command (60_exceptions.md): what each kind of ending writes, that R159's table of checks
decides the ending and R154's table lists it, and the frozen state; then the obligations of that file. -/

namespace Sys2Proof.Machine

open Claim

variable {s t : State}

/-! ## What each kind of ending writes -/

/-- The kind of an ending, with the numbers of R150 and R153. -/
def Ending.out : Ending → Out
  | .done _ _ => .done
  | .raise (.err c) => .err c.code.toNat
  | .raise (.fatal f) => .fatal f.code.toNat

/-- The state an ending leaves tells its kind. -/
theorem outOf_finish (hf : s.status.fatal = false) (e : Ending) : outOf (s.finish e) = e.out := by
  cases e with
  | done n st => exact outOf_done hf n st
  | raise r =>
    cases r with
    | err c => exact outOf_raiseErr hf c
    | fatal f => exact outOf_raiseFatal f

theorem Ending.out_eq_err {e : Ending} {code : Nat} (h : e.out = .err code) :
    ∃ c : ErrCode, e = .raise (.err c) ∧ c.code.toNat = code := by
  cases e with
  | done n st => cases h
  | raise r =>
    cases r with
    | err c => exact ⟨c, rfl, Out.err.inj h⟩
    | fatal f => cases h

theorem Ending.out_eq_fatal {e : Ending} {fcode : Nat} (h : e.out = .fatal fcode) :
    ∃ f : Fault, e = .raise (.fatal f) ∧ f.code.toNat = fcode := by
  cases e with
  | done n st => cases h
  | raise r =>
    cases r with
    | err c => cases h
    | fatal f => exact ⟨f, rfl, Out.fatal.inj h⟩

/-- `raise Err` has the whole effect of R156. -/
theorem raiseErr_eq_errState (s : State) (c : ErrCode) : s.raiseErr c = errState s c.code.toNat := by
  rw [errState, BitVec.ofNat_toNat, BitVec.setWidth_eq]
  rfl

/-- `raise Fatal` has the whole effect of R157. -/
theorem raiseFatal_eq_fatalState (s : State) (f : Fault) : s.raiseFatal f = fatalState s f.code.toNat := by
  rw [fatalState, BitVec.ofNat_toNat, BitVec.setWidth_eq]
  rfl

theorem finish_of_out_err {e : Ending} {code : Nat} (h : e.out = .err code) : s.finish e = errState s code := by
  obtain ⟨c, rfl, rfl⟩ := Ending.out_eq_err h
  exact raiseErr_eq_errState s c

theorem finish_of_out_fatal {e : Ending} {fcode : Nat} (h : e.out = .fatal fcode) :
    s.finish e = fatalState s fcode := by
  obtain ⟨f, rfl, rfl⟩ := Ending.out_eq_fatal h
  exact raiseFatal_eq_fatalState s f

/-- A recoverable error leaves a command's operands and MEM, so that the command ends the same way again (R156). -/
theorem exec_raiseErr_again {i : Instr} {c : ErrCode} (hf : s.status.fatal = false)
    (h : endingOf i s = .raise (.err c)) : exec i (s.raiseErr c) = .next (s.raiseErr c) := by
  have hagree : AgreeOn i (s.raiseErr c) s := by simp [AgreeOn]
  rw [exec_run (s := s.raiseErr c) i hf, endingOf_congr hagree, h]
  rfl

/-! ## R159's table of checks -/

theorem firstOut_nil : firstOut [] = .done := rfl

theorem firstOut_cons (p : Prop) [Decidable p] (o : Out) (cs : List (Bool × Out)) :
    firstOut ((decide p, o) :: cs) = if p then o else firstOut cs := by
  by_cases h : p <;> simp [firstOut, h]

/-- The first check that fails is one of the table's, if one fails. -/
theorem firstOut_mem (cs : List (Bool × Out)) : firstOut cs ∈ .done :: cs.map (·.2) := by
  unfold firstOut
  split
  · rename_i c hc
    exact List.mem_cons_of_mem _ (List.mem_map_of_mem (List.mem_of_find?_eq_some hc))
  · exact List.mem_cons_self

/-- The adapter's chain of checks is its row of the table. -/
theorem adapter_out (f : List Byte → List Byte) :
    (checked (adapterChecks s) (transformEnding f s)).out = firstOut (priority s .ecbenc) := by
  simp only [adapter_eq, priority, apply_ite Ending.out, firstOut_cons, firstOut_nil, Nat.not_le]
  rfl

/-- The dispatcher's chain of checks is its row of the table: an unrecognised mode is a tag above 4 (R28). -/
theorem dispatch_out (f : State → Mode → List Byte → List Byte) :
    (dispatchEnding f s).out = firstOut (priority s .xenc) := by
  simp only [dispatch_eq, priority, apply_ite Ending.out, firstOut_cons, firstOut_nil, Nat.not_le]
  cases hm : modeOf s.cfg.mode with
  | none =>
    rw [if_pos (modeOf_eq_none.mp hm)]
    rfl
  | some m =>
    have hmode : ¬5 ≤ s.cfg.mode.toNat := fun h => nomatch (modeOf_eq_none.mpr h).symm.trans hm
    simp only [if_neg hmode, apply_ite Ending.out]
    rfl

/-- Every command's chain of checks is its row of the table. -/
theorem endingOf_out (i : Instr) (s : State) : (endingOf i s).out = firstOut (priority s i) := by
  cases i with
  | pad =>
    simp only [endingOf, padEnding_eq, priority, apply_ite Ending.out, firstOut_cons, firstOut_nil, Nat.not_le]
    rfl
  | unpad =>
    have hzero : s.len = 0 ↔ s.len.toNat = 0 := BitVec.toNat_eq (y := 0)
    simp only [endingOf, unpadEnding_eq, priority, apply_ite Ending.out, firstOut_cons, firstOut_nil, hzero]
    rfl
  | ecbenc => exact adapter_out _
  | ecbdec => exact adapter_out _
  | xenc => exact dispatch_out _
  | xdec => exact dispatch_out _

/-- A command ends as the first check that fails in its row of the table says (R159). -/
theorem outOf_exec {i : Instr} (hf : s.status.fatal = false) (ht : exec i s = .next t) :
    outOf t = firstOut (priority s i) := by
  rw [eq_finish_of_exec hf ht, outOf_finish hf, endingOf_out]

/-! ## R154's table of endings -/

/-- The endings of a command's checks, and `Done`, are in its column. -/
theorem mem_table_of_mem_priority {i : Instr} {o : Out} (h : o ∈ .done :: (priority s i).map (·.2)) :
    o ∈ table i := by
  revert h o
  cases i <;> simp [priority, table]

/-- MEM of 64 bytes, with a 1 at address 0. -/
def exampleMem : Memory := ⟨64, [(0, 1)]⟩

/-- For each ending of R154's table, operands with which every command that has the ending in its column ends so. The
operands of power-up are those of `ERR_KEY_SIZE`, their key length being 0. -/
def endingExample : Out → State
  | .err 1 => { State.powerUp exampleMem with keylen := 16, cfg := ⟨5, 1⟩ }
  | .err 2 => { State.powerUp exampleMem with cfg := ⟨1, 2⟩ }
  | .err 4 => { State.powerUp exampleMem with len := 1 }
  | .err 5 => { State.powerUp exampleMem with keylen := 16, len := 1 }
  | .fatal 1 => { State.powerUp exampleMem with keylen := 16, len := 1 }
  | .fatal 2 => { State.powerUp exampleMem with keylen := 16, len := 16 }
  | .fatal 3 => { State.powerUp exampleMem with len := 65 }
  | .fatal 4 => { State.powerUp exampleMem with len := 16, dst := 1, dcap := 16 }
  | .done => { State.powerUp exampleMem with keylen := 16, dcap := 16 }
  | _ => State.powerUp exampleMem

theorem endingExample_running (o : Out) : (endingExample o).status.fatal = false := by
  unfold endingExample
  split <;> rfl

/-- On its operands the table's checks come to the ending. -/
theorem firstOut_endingExample {i : Instr} : ∀ o ∈ table i, firstOut (priority (endingExample o) i) = o := by
  cases i <;> decide

/-! ## The report of a fatal fault -/

theorem Fault.ofCode_code (f : Fault) : Fault.ofCode f.code = some f := by cases f <;> decide

/-- The numbers 1 to 4 are faults (R153). -/
theorem Fault.exists_code {c : Byte} (h0 : c ≠ 0) (h4 : c.toNat ≤ 4) : ∃ f : Fault, f.code = c := by
  have hne : c.toNat ≠ 0 := fun h => h0 (BitVec.eq_of_toNat_eq h)
  have hcodes : c.toNat = 1 ∨ c.toNat = 2 ∨ c.toNat = 3 ∨ c.toNat = 4 := by omega
  rcases hcodes with h | h | h | h
  · exact ⟨.srcLen, (BitVec.eq_of_toNat_eq h).symm⟩
  · exact ⟨.dstCap, (BitVec.eq_of_toNat_eq h).symm⟩
  · exact ⟨.bounds, (BitVec.eq_of_toNat_eq h).symm⟩
  · exact ⟨.overlap, (BitVec.eq_of_toNat_eq h).symm⟩

/-- A frozen state that meets the invariant stands in the fault of its `FCODE` (R26, R153). -/
theorem fatalFault_of_inv (h : t.inv) (hf : t.status.fatal = true) :
    ∃ f, t.fatalFault = some f ∧ f.code = t.status.fcode := by
  obtain ⟨-, ⟨-, hfatal, hle⟩, -⟩ := h
  have hne : t.status.fcode ≠ 0 := fun h0 => nomatch hf.symm.trans (hfatal.mpr h0)
  obtain ⟨f, hcode⟩ := Fault.exists_code hne hle
  exact ⟨f, by rw [State.fatalFault, if_pos hf, ← hcode, Fault.ofCode_code], hcode⟩

theorem checkedStep_fault {f : Fault} (h : step s = .next t) (ht : t.fatalFault = some f) :
    checkedStep s = .fault f := by
  simp only [checkedStep, h, ht]

theorem checkedStep_next (h : step s = .next t) (hf : t.status.fatal = false) : checkedStep s = .next t := by
  have ht : t.fatalFault = none := if_neg (Bool.eq_false_iff.mp hf)
  simp only [checkedStep, h, ht]

/-! ## The frozen state -/

/-- In the frozen state a write to `CMD` executes nothing, whatever the word (R158). -/
theorem cmdWrite_frozen (w : Word) (hf : s.status.fatal = true) : cmdWrite w s = .next s := by
  obtain ⟨body, hb⟩ := cmdWrite_eq w s
  rw [hb, command_frozen hf]

/-- In the frozen state a register write the host has changes nothing (R158). -/
theorem hostRegWrite_frozen {off : Nat} (v : Word) (ho : Offset off) (hf : s.status.fatal = true) :
    hostRegWrite off v s = .next s := by
  have hr := regAt_of ho
  by_cases hc : slotReg (off / 4) = .cmd
  · obtain rfl : Reg.offset .cmd = off := offset_of_regAt (hc ▸ hr) (by decide)
    exact cmdWrite_frozen v hf
  · rw [hostRegWrite_reg v hr hc, if_pos hf]

/-! ## The obligations of 60_exceptions.md -/

/-- Settles O5: the first check of the table that fails is the kind of the ending, and the ending has its effect. -/
theorem checksRunInPriorityOrder : Obligations.ChecksRunInPriorityOrder := by
  refine ⟨fun i s hf => ?_, fun s w hf => cmdWrite_frozen w hf, fun s w hf hw => cmdWrite_of_ne_word hf hw⟩
  have hout := endingOf_out i s
  rw [exec_run i hf]
  cases hfirst : firstOut (priority s i) with
  | done => exact ⟨_, rfl, by rw [outOf_finish hf, hout, hfirst]⟩
  | err code => exact congrArg _ (finish_of_out_err (hout.trans hfirst))
  | fatal fcode => exact congrArg _ (finish_of_out_fatal (hout.trans hfirst))

/-- Settles O6: a command ends as a check of its row says, and each ending of its column is reached by an example. -/
theorem endingsAreThoseOfTheTable : Obligations.EndingsAreThoseOfTheTable := by
  refine ⟨fun i o => ⟨fun ho => ?_, ?_⟩, fun o => ⟨?_, ?_⟩⟩
  · have hf := endingExample_running o
    exact ⟨endingExample o, _, hf, exec_run i hf, by rw [outOf_finish hf, endingOf_out, firstOut_endingExample o ho]⟩
  · rintro ⟨s, t, hf, ht, rfl⟩
    rw [outOf_exec hf ht]
    exact mem_table_of_mem_priority (firstOut_mem _)
  · rintro rfl
    have hw : ∀ i, (0 : Word) ≠ word i := fun i => by cases i <;> decide
    exact ⟨State.reset, _, 0, rfl, hw, cmdWrite_of_ne_word rfl hw, by decide⟩
  · rintro ⟨s, t, w, hf, hw, ht, rfl⟩
    obtain rfl := Host.Outcome.next.inj (ht.symm.trans (cmdWrite_of_ne_word hf hw))
    exact outOf_raiseErr hf .illegalCmd

/-- Settles O8: the ending raises the error, and the same command comes to the same ending in the state that leaves. -/
theorem errorLeavesEverythingElse : Obligations.ErrorLeavesEverythingElse := by
  intro i s t code hf ht hout
  obtain rfl := eq_finish_of_exec hf ht
  rw [outOf_finish hf] at hout
  refine ⟨finish_of_out_err hout, ?_⟩
  obtain ⟨c, hend, -⟩ := Ending.out_eq_err hout
  rw [hend]
  exact exec_raiseErr_again hf hend

/-- Settles O9: the ending raises the fault, and a next state that meets the invariant has the number of a fault in
`FCODE` exactly while it is frozen. -/
theorem fatalWritesOnlyItsCause : Obligations.FatalWritesOnlyItsCause := by
  refine ⟨fun i s t fcode hf ht hout => ?_, fun s t hinv hstep => ?_⟩
  · obtain rfl := eq_finish_of_exec hf ht
    exact finish_of_out_fatal ((outOf_finish hf _).symm.trans hout)
  · split
    · rename_i hf
      obtain ⟨f, hfault, hcode⟩ := fatalFault_of_inv (stepKeepsTheInvariant s t hinv hstep) hf
      exact ⟨f, checkedStep_fault hstep hfault, hcode⟩
    · rename_i hf
      exact checkedStep_next hstep (Bool.eq_false_iff.mpr hf)

/-- Settles O10: each write the host has holds a frozen block, reads do not look at `FATAL`, and `Reset` clears it. -/
theorem frozenUntilReset : Obligations.FrozenUntilReset := by
  intro s m rest hf hm hhas
  cases m with
  | regRead off => exact ⟨fun _ => step_regRead hm hhas, nofun⟩
  | regWrite off v => exact ⟨fun _ => (step_move hm).trans (hostRegWrite_frozen v hhas hf), nofun⟩
  | memRead addr n => exact ⟨fun _ => step_memRead hm hhas, nofun⟩
  | memWrite addr bytes => exact ⟨fun _ => step_memWrite_frozen hm hhas hf, nofun⟩
  | reset => exact ⟨fun h => absurd rfl h, fun _ => ⟨_, step_move hm, rfl⟩⟩

end Sys2Proof.Machine

/-! PROOFS. Reset and the state after it (70_reset_and_hazards.md): how the checks of a command come out where only the key
length or the room at the destination is at fault, as after reset; then the obligations of that file. -/

namespace Sys2Proof.Machine

open Claim

variable {s : State} {i : Instr}

/-! ## A command whose first fault is known -/

/-- A command whose first failing check raises an error has the whole effect of R156. -/
theorem exec_of_firstOut_err {code : Nat} (hf : s.status.fatal = false) (h : firstOut (priority s i) = .err code) :
    exec i s = .next (errState s code) := by
  rw [exec_run i hf, finish_of_out_err ((endingOf_out i s).trans h)]

/-- A command whose first failing check raises a fault has the whole effect of R157. -/
theorem exec_of_firstOut_fatal {fcode : Nat} (hf : s.status.fatal = false)
    (h : firstOut (priority s i) = .fatal fcode) : exec i s = .next (fatalState s fcode) := by
  rw [exec_run i hf, finish_of_out_fatal ((endingOf_out i s).trans h)]

/-- Buffers that pass `GeometryCheck2` leave the checks that follow it to decide (R55, R159). -/
theorem firstOut_geometry (hgeom : Geometry s) (cs : List (Bool × Out)) :
    firstOut ((decide ¬SourceFits s, .fatal 3) :: (decide ¬DestFits s, .fatal 3) :: (decide ¬Apart s, .fatal 4) :: cs) =
      firstOut cs := by
  obtain ⟨hsrc, hdst, hapart⟩ := hgeom
  simp only [firstOut_cons, if_neg (not_not.mpr hsrc), if_neg (not_not.mpr hdst), if_neg (not_not.mpr hapart)]

/-- Where the buffers pass, an illegal key length is the first fault of a cipher command (R111, R159). -/
theorem firstOut_keySize (hi : i ∈ [Instr.ecbenc, .ecbdec, .xenc, .xdec]) (hgeom : Geometry s)
    (hkey : ¬KeyLen s.keylen.toNat) : firstOut (priority s i) = .err 6 := by
  cases i with
  | pad | unpad => exact absurd hi (by decide)
  | ecbenc | ecbdec | xenc | xdec => rw [priority, firstOut_geometry hgeom, firstOut_cons, if_pos hkey]

/-- Where the buffers and the padding tag pass, too little room for the padded data is the first fault of `PAD` (R95,
R159). -/
theorem firstOut_pad_dstCap (hgeom : Geometry s) (hscheme : Scheme s)
    (hroom : s.dcap.toNat < s.len.toNat + padding s.len.toNat) : firstOut (priority s .pad) = .fatal 2 := by
  rw [priority, firstOut_geometry hgeom, firstOut_cons, if_neg (not_not.mpr hscheme), firstOut_cons, if_pos hroom]

/-- A command has a next state, in the frozen state too (R177, R26). -/
theorem exec_next (i : Instr) (s : State) : ∃ t, exec i s = .next t := by
  rw [exec_eq]
  exact command_next _ s

/-! ## The state after reset -/

/-- The empty buffers of reset are in bounds whatever MEM is, and do not overlap (R53, R54). -/
theorem powerUp_geometry (mem : Memory) : Geometry (.powerUp mem) := ⟨Nat.zero_le _, Nat.zero_le _, .inl rfl⟩

/-- After reset the padding is PKCS7 (R45). -/
theorem powerUp_scheme (mem : Memory) : Scheme (.powerUp mem) := .inr rfl

/-- After reset `KL` is 0, which no key has (R31, R45). -/
theorem powerUp_not_keyLen (mem : Memory) : ¬KeyLen (State.powerUp mem).keylen.toNat := by
  show ¬KeyLen 0
  decide

/-- The offsets of the register space read after `Reset` what they read after power-up (R175). -/
theorem valueAt_resetMove (s : State) (off : Nat) : valueAt s.resetMove off = if off = 0x08 then 0x00000101 else 0 :=
  valueAt_powerUp s.mem off

/-! ## The obligations of 70_reset_and_hazards.md -/

/-- Settles O17: `Reset` leaves the state of power-up on the same MEM, and of the effects of a step it alone clears
`FATAL` (O43). -/
theorem resetGivesTheResetValues : Obligations.ResetGivesTheResetValues := by
  refine ⟨fun s rest hm => ?_, fun s t hstep hs ht => ?_⟩
  · exact ⟨_, step_move hm, rfl, rfl, valueAt_resetMove (s.takeMove rest)⟩
  · obtain ⟨-, -, -, hcleared⟩ := fatalIsSticky s t hstep
    exact hcleared hs ht

/-- Settles O18: `exec` never stops, and after reset the buffers are empty and in bounds, so that `PAD` first lacks room,
the cipher commands first lack a key, and `UNPAD` has nothing to take off. -/
theorem commandsAfterReset : Obligations.CommandsAfterReset := by
  refine ⟨exec_next, fun mem => ?_⟩
  have hgeom := powerUp_geometry mem
  have hscheme := powerUp_scheme mem
  have ⟨hsrc, _, _⟩ := hgeom
  have hroom : 0 < 0 + padding 0 := by decide
  refine ⟨?_, ?_, fun i hi => ?_, rfl, rfl⟩
  · exact exec_of_firstOut_fatal rfl (firstOut_pad_dstCap hgeom hscheme hroom)
  · exact exec_unpad_some (s := .powerUp mem) (r := []) rfl hsrc hscheme rfl
  · exact exec_of_firstOut_err rfl (firstOut_keySize hi hgeom (powerUp_not_keyLen mem))

end Sys2Proof.Machine
